-- ==== Sys2Proof/Word.lean ====
section
/-!
DEFINITION. The word types of the block (rules R7, R10): a byte is 8 bits, a word is 64 bits, and a
block of storage is NB_MAX = 8 words. Nothing here computes; the byte view of a word is in
`Sys2Proof/Machine/Bytes.lean`.
-/

namespace Sys2Proof

/-- A byte (R10). -/
abbrev Byte := BitVec 8

/-- A word (R7, parameter WORD): every state word, round-key word, key word and host register. -/
abbrev Word := BitVec 64

/-- Storage for NB_MAX = 8 words (R7, R34): the cipher state, one round-key block, DIN, KEY and each
scratch register of the key schedule. -/
abbrev Block := Vector Word 8

/-- The round-key file, NR_MAX + 1 = 19 blocks (R7, R35). -/
abbrev RkFile := Vector Block 19

/-- An 8×8 matrix of bytes (R7, parameters MDS and MDS_INV), row by row. -/
abbrev ByteMatrix := Vector (Vector Byte 8) 8

/-- Four byte tables of 256 entries (R7, R39, parameters SBOX and INV_SBOX). -/
abbrev SboxTables := Vector (Vector Byte 256) 4

end Sys2Proof
end

