-- ==== Sys2Proof/Syntax.lean ====
section
/-!
DEFINITION. The 22 commands of the command set KCMD (rule R108), one constructor for each row of
`spec/opcode_table.json`. An operand is the unsigned number of its field (R111); that a number fits its
field is `Instr.wf` (`Sys2Proof/WellFormed.lean`).
-/

namespace Sys2Proof

/-- A command. The block operands (the state, a round key, DIN, KEY) are never in the command word:
they are the registers named in each command's rule (R111). -/
inductive Instr where
  /-- INIT blk, keyb (R141): sizes in bits. -/
  | init (blk keyb : Nat)
  /-- TEARDOWN (R145). -/
  | teardown
  /-- KEY_EXPAND (R281). -/
  | keyExpand
  /-- ENCIPHER (R321). -/
  | encipher
  /-- DECIPHER (R322). -/
  | decipher
  /-- LOAD_STATE (R233). -/
  | loadState
  /-- SUB_BYTES (R164). -/
  | subBytes
  /-- INV_SUB_BYTES (R165). -/
  | invSubBytes
  /-- SHIFT_ROWS (R184). -/
  | shiftRows
  /-- INV_SHIFT_ROWS (R185). -/
  | invShiftRows
  /-- MIX_COLUMNS (R209). -/
  | mixColumns
  /-- INV_MIX_COLUMNS (R210). -/
  | invMixColumns
  /-- ENC_ROUND (R263). -/
  | encRound
  /-- DEC_ROUND (R264). -/
  | decRound
  /-- ADD_RK j (R234): j is a round-key index. -/
  | addRk (j : Nat)
  /-- SUB_RK j (R235). -/
  | subRk (j : Nat)
  /-- XOR_RK j (R236). -/
  | xorRk (j : Nat)
  /-- ADD_DIN (R237). -/
  | addDin
  /-- XOR_DIN (R238). -/
  | xorDin
  /-- GF_MUL a, b (R203): two bytes. -/
  | gfMul (a b : Nat)
  /-- SBOX t, x (R166): a table index and a byte. -/
  | sbox (t x : Nat)
  /-- INV_SBOX t, x (R167). -/
  | invSbox (t x : Nat)
  deriving DecidableEq, Repr

end Sys2Proof
end

