-- ==== Sys2Proof/WellFormed.lean ====
section
/-!
DEFINITION. Which commands are well formed: every operand fits its field (rule R112, with the fields of
R101). Legality of a configuration and of a round-key index is not part of it: those are checks the
engine makes when the command runs (R103, R104).
-/

namespace Sys2Proof

/-- R112: blk and keyb must be < 65536, j < 256, t < 4, and x, a and b < 256. -/
def Instr.wf : Instr → Bool
  | .init blk keyb => decide (blk < 65536) && decide (keyb < 65536)
  | .teardown => true
  | .keyExpand => true
  | .encipher => true
  | .decipher => true
  | .loadState => true
  | .subBytes => true
  | .invSubBytes => true
  | .shiftRows => true
  | .invShiftRows => true
  | .mixColumns => true
  | .invMixColumns => true
  | .encRound => true
  | .decRound => true
  | .addRk j => decide (j < 256)
  | .subRk j => decide (j < 256)
  | .xorRk j => decide (j < 256)
  | .addDin => true
  | .xorDin => true
  | .gfMul a b => decide (a < 256) && decide (b < 256)
  | .sbox t x => decide (t < 4) && decide (x < 256)
  | .invSbox t x => decide (t < 4) && decide (x < 256)

end Sys2Proof
end

