-- ==== Sys2Proof/Decode.lean ====
section
/-!
DEFINITION. The command encoding (rules R100 to R111): the opcode map, the five formats, the decoder,
which is total on 64-bit words and rejects by name, and the encoder written from the same fields.
-/

namespace Sys2Proof

/-- The rows of the opcode map (R108). -/
inductive Op where
  | init | teardown | keyExpand | encipher | decipher
  | loadState | subBytes | invSubBytes | shiftRows | invShiftRows | mixColumns | invMixColumns
  | encRound | decRound
  | addRk | subRk | xorRk | addDin | xorDin
  | gfMul | sbox | invSbox
  deriving DecidableEq, Repr

/-- The command formats (R102 to R106). -/
inductive Format where
  /-- no operands (R102) -/
  | n
  /-- configuration: BLK and KEYB (R103) -/
  | i
  /-- round index: IDX (R104) -/
  | r
  /-- two byte operands: A and B (R105) -/
  | g
  /-- table lookup: T and A (R106) -/
  | t
  deriving DecidableEq, Repr

/-- Why a word is no command. Both raise ILLEGAL_COMMAND (R107). -/
inductive Reject where
  /-- The opcode is not in the opcode map (R109). -/
  | reservedOpcode
  /-- A bit the format does not use is 1 (R107). -/
  | reservedBit
  deriving DecidableEq, Repr

/-- Every row of R108, in the table's order. -/
def Op.all : List Op :=
  [.init, .teardown, .keyExpand, .encipher, .decipher,
   .loadState, .subBytes, .invSubBytes, .shiftRows, .invShiftRows, .mixColumns, .invMixColumns,
   .encRound, .decRound, .addRk, .subRk, .xorRk, .addDin, .xorDin, .gfMul, .sbox, .invSbox]

/-- The OPC column of R108. -/
def Op.code : Op → Nat
  | .init => 0x01
  | .teardown => 0x02
  | .keyExpand => 0x03
  | .encipher => 0x04
  | .decipher => 0x05
  | .loadState => 0x10
  | .subBytes => 0x11
  | .invSubBytes => 0x12
  | .shiftRows => 0x13
  | .invShiftRows => 0x14
  | .mixColumns => 0x15
  | .invMixColumns => 0x16
  | .encRound => 0x17
  | .decRound => 0x18
  | .addRk => 0x20
  | .subRk => 0x21
  | .xorRk => 0x22
  | .addDin => 0x23
  | .xorDin => 0x24
  | .gfMul => 0x30
  | .sbox => 0x31
  | .invSbox => 0x32

/-- The mnemonic column of R108. -/
def Op.mnemonic : Op → String
  | .init => "INIT"
  | .teardown => "TEARDOWN"
  | .keyExpand => "KEY_EXPAND"
  | .encipher => "ENCIPHER"
  | .decipher => "DECIPHER"
  | .loadState => "LOAD_STATE"
  | .subBytes => "SUB_BYTES"
  | .invSubBytes => "INV_SUB_BYTES"
  | .shiftRows => "SHIFT_ROWS"
  | .invShiftRows => "INV_SHIFT_ROWS"
  | .mixColumns => "MIX_COLUMNS"
  | .invMixColumns => "INV_MIX_COLUMNS"
  | .encRound => "ENC_ROUND"
  | .decRound => "DEC_ROUND"
  | .addRk => "ADD_RK"
  | .subRk => "SUB_RK"
  | .xorRk => "XOR_RK"
  | .addDin => "ADD_DIN"
  | .xorDin => "XOR_DIN"
  | .gfMul => "GF_MUL"
  | .sbox => "SBOX"
  | .invSbox => "INV_SBOX"

/-- The format column of R108. -/
def Op.format : Op → Format
  | .init => .i
  | .addRk | .subRk | .xorRk => .r
  | .gfMul => .g
  | .sbox | .invSbox => .t
  | .teardown | .keyExpand | .encipher | .decipher => .n
  | .loadState | .subBytes | .invSubBytes | .shiftRows | .invShiftRows | .mixColumns => .n
  | .invMixColumns | .encRound | .decRound | .addDin | .xorDin => .n

/-- The row with opcode value `n`, if R108 has one; every other value is reserved (R109). -/
def Op.ofCode (n : Nat) : Option Op := Op.all.find? fun o => o.code == n

/-- The row of a command. -/
def Instr.op : Instr → Op
  | .init _ _ => .init
  | .teardown => .teardown
  | .keyExpand => .keyExpand
  | .encipher => .encipher
  | .decipher => .decipher
  | .loadState => .loadState
  | .subBytes => .subBytes
  | .invSubBytes => .invSubBytes
  | .shiftRows => .shiftRows
  | .invShiftRows => .invShiftRows
  | .mixColumns => .mixColumns
  | .invMixColumns => .invMixColumns
  | .encRound => .encRound
  | .decRound => .decRound
  | .addRk _ => .addRk
  | .subRk _ => .subRk
  | .xorRk _ => .xorRk
  | .addDin => .addDin
  | .xorDin => .xorDin
  | .gfMul _ _ => .gfMul
  | .sbox _ _ => .sbox
  | .invSbox _ _ => .invSbox

/-- The bit-field `c[hi:lo]`, read as an unsigned number (R10). -/
def field (c : Word) (hi lo : Nat) : Nat := (c.toNat >>> lo) % 2 ^ (hi - lo + 1)

/-- The operand bits of a format (R107); the match mask of the format is the complement. -/
def Format.freemask : Format → Word
  | .n => 0
  | .i => 0xFFFFFFFF00000000
  | .r => 0x000000000000FF00
  | .g => 0x00000000FFFF0000
  | .t => 0x0000000000FF0300

/-- Operand assembly (R111): each field copied from the word, with no extension, scaling or shift. -/
def Op.operands (o : Op) (c : Word) : Instr :=
  match o with
  | .init => .init (field c 47 32) (field c 63 48)
  | .teardown => .teardown
  | .keyExpand => .keyExpand
  | .encipher => .encipher
  | .decipher => .decipher
  | .loadState => .loadState
  | .subBytes => .subBytes
  | .invSubBytes => .invSubBytes
  | .shiftRows => .shiftRows
  | .invShiftRows => .invShiftRows
  | .mixColumns => .mixColumns
  | .invMixColumns => .invMixColumns
  | .encRound => .encRound
  | .decRound => .decRound
  | .addRk => .addRk (field c 15 8)
  | .subRk => .subRk (field c 15 8)
  | .xorRk => .xorRk (field c 15 8)
  | .addDin => .addDin
  | .xorDin => .xorDin
  | .gfMul => .gfMul (field c 23 16) (field c 31 24)
  | .sbox => .sbox (field c 9 8) (field c 23 16)
  | .invSbox => .invSbox (field c 9 8) (field c 23 16)

/-- R107, on any 64-bit word: the opcode must be in the map, then every reserved bit must be 0. -/
def decode (c : Word) : Except Reject Instr :=
  match Op.ofCode (field c 7 0) with
  | none => .error .reservedOpcode
  | some o =>
    if c &&& ~~~ o.format.freemask = BitVec.ofNat 64 o.code then .ok (o.operands c)
    else .error .reservedBit

/-- The operand fields of a command as a number placed at their bit positions (R102 to R106). -/
def Instr.fields : Instr → Nat
  | .init blk keyb => blk * 2 ^ 32 + keyb * 2 ^ 48
  | .teardown | .keyExpand | .encipher | .decipher => 0
  | .loadState | .subBytes | .invSubBytes | .shiftRows | .invShiftRows | .mixColumns => 0
  | .invMixColumns | .encRound | .decRound | .addDin | .xorDin => 0
  | .addRk j => j * 2 ^ 8
  | .subRk j => j * 2 ^ 8
  | .xorRk j => j * 2 ^ 8
  | .gfMul a b => a * 2 ^ 16 + b * 2 ^ 24
  | .sbox t x => t * 2 ^ 8 + x * 2 ^ 16
  | .invSbox t x => t * 2 ^ 8 + x * 2 ^ 16

/-- The 64-bit CMD value of a well-formed command (R101 to R106). -/
def encode (i : Instr) : Word := BitVec.ofNat 64 (i.op.code + i.fields)

/-- The 64-bit command word whose lowest `nbits` bits are those of `w` and whose other bits are 0. There
is one command length and one word (R100), so the table's numbering of bits is the word's own. -/
def tableWord (nbits w : Nat) : Word := BitVec.ofNat 64 (w % 2 ^ nbits)

/-- What the decoder reads from a row of the opcode table with the bits of `w`. -/
def decodeTableWord (nbits w : Nat) : Option Instr :=
  match decode (tableWord nbits w) with
  | .ok i => some i
  | .error _ => none

end Sys2Proof
end

