-- ==== Sys2Proof/Machine/Bytes.lean ====
section
/-!
DEFINITION. The byte view of a word and total access to the words of a block (rules R11, R12, R13). Byte 0
is the least significant byte; column c of the state matrix is word c and row r is byte r of each word.
-/

namespace Sys2Proof

/-- `byte(w, j) = w[8j+7 : 8j]` (R11). -/
def byteOf (w : Word) (j : Nat) : Byte := w.extractLsb' (8 * j) 8

/-- The word whose byte j is `f j`, `Σ f(j) · 2^(8j)` for j in 0..7 (R11). -/
def packWord (f : Nat → Byte) : Word := f 7 ++ f 6 ++ f 5 ++ f 4 ++ f 3 ++ f 2 ++ f 1 ++ f 0

/-- The exclusive-or of the eight byte terms f 0 .. f 7 (R13). -/
def xorBytes (f : Nat → Byte) : Byte :=
  f 0 ^^^ f 1 ^^^ f 2 ^^^ f 3 ^^^ f 4 ^^^ f 5 ^^^ f 6 ^^^ f 7

/-- Word i of a block; 0 past its storage. -/
def Block.word (b : Block) (i : Nat) : Word := if h : i < 8 then b[i] else 0

/-- The block whose word i is `f i`. -/
def Block.tab (f : Nat → Word) : Block := #v[f 0, f 1, f 2, f 3, f 4, f 5, f 6, f 7]

/-- The n-word block whose word i is `f i` for i < n, with zeros above (R180). -/
def Block.ofWords (n : Nat) (f : Nat → Word) : Block := Block.tab fun i => if i < n then f i else 0

/-- `old` with its words 0..n-1 replaced by those of `new` (R15). -/
def Block.merge (n : Nat) (new old : Block) : Block :=
  Block.tab fun i => if i < n then Block.word new i else Block.word old i

/-- Byte k of the serialization B(S), `B(S)[8i + j] = byte(S[i], j)` (R11). -/
def Block.byte (b : Block) (k : Nat) : Byte := byteOf (Block.word b (k / 8)) (k % 8)

/-- The n-word block that packs the serialization `f`, `W(b)[i] = Σ b[8i+j] · 2^(8j)` (R11). -/
def Block.ofBytes (n : Nat) (f : Nat → Byte) : Block :=
  Block.ofWords n fun i => packWord fun j => f (8 * i + j)

/-- RK[j]; the zero block past the file's storage. -/
def RkFile.block (rk : RkFile) (j : Nat) : Block := if h : j < 19 then rk[j] else Vector.replicate 8 0

/-- RK[j][0..n-1] <- new; a write past the file's storage writes nothing. -/
def RkFile.write (n : Nat) (rk : RkFile) (j : Nat) (new : Block) : RkFile :=
  rk.setIfInBounds j (Block.merge n new (RkFile.block rk j))

end Sys2Proof
end

