-- ==== Sys2Proof/Config.lean ====
section
/-!
DEFINITION. The implementation parameters of rule R7 as one record, and the values no source gives as
constants without a body. The parameters' default values, and the functions that read them, are in
`Sys2Proof/Machine/Tables.lean`.
-/

namespace Sys2Proof

/-- The five legal configurations (R6), named by block and key size in bits. -/
inductive Conf where
  | b128k128 | b128k256 | b256k256 | b256k512 | b512k512
  deriving DecidableEq, Repr

/-- The round counts a configuration may take, `nr ∈ {10,14,18}` (R6). -/
inductive Rounds where
  | r10 | r14 | r18
  deriving DecidableEq, Repr

/-- Parameter NR_TABLE (R7): the round count of each configuration. -/
structure NrTable where
  b128k128 : Rounds
  b128k256 : Rounds
  b256k256 : Rounds
  b256k512 : Rounds
  b512k512 : Rounds
  deriving DecidableEq, Repr

/-- Parameter KS_ROTATION (R7, R285): which rotation of the key copy the even key schedule uses. -/
inductive KsRotation where
  /-- the source's text, the default -/
  | doc
  /-- one word every iteration -/
  | ref1w
  deriving DecidableEq, Repr

/-- What a latency may depend on (R389): the opcode and the configuration, nothing else. -/
structure LatKey where
  opc : Byte
  nb : Byte
  nk : Byte
  deriving DecidableEq, Repr

/-- The parameters of the block (R7), which the spec has a model take as an argument of its step relation
(R52). No step changes them, reset included (R380). -/
structure Params where
  /-- SBOX, OPEN (R7) -/
  sbox : SboxTables
  /-- INV_SBOX, OPEN (R7) -/
  invSbox : SboxTables
  /-- MDS (R7, R206) -/
  mds : ByteMatrix
  /-- MDS_INV (R7, R206) -/
  mdsInv : ByteMatrix
  /-- NR_TABLE (R6, R7) -/
  nrTable : NrTable
  /-- KS_ROTATION (R7, R285) -/
  ksRotation : KsRotation
  /-- LAT (R7, R389): the entries of the latency table that are not 0. -/
  lat : List (LatKey × Nat)
  deriving DecidableEq, Repr

/-- The four substitution tables, of which the spec gives no entry (R8, U1): a free value. That each is
a bijection is all R8 lets a model assume, and it is all this type says. -/
opaque Config.sboxPerm : Fin 4 → Equiv.Perm Byte

/-- What a read of a register other than STATUS returns while a command executes (R386, U6): a free
value, drawn anew at each such read. -/
opaque Config.busyRead : Nat → Word

end Sys2Proof
end

