-- ==== Sys2Proof/Machine/Tables.lean ====
section
/-!
DEFINITION. The parameters' default values (rules R6, R7, R206) and the functions that read a parameter:
a substitution table's entry, a matrix entry, the configuration rows, a command's latency.
-/

namespace Sys2Proof

/-- The five rows of R6. -/
def Conf.all : List Conf := [.b128k128, .b128k256, .b256k256, .b256k512, .b512k512]

/-- Column "block bits" of R6. -/
def Conf.blockBits : Conf → Nat
  | .b128k128 => 128
  | .b128k256 => 128
  | .b256k256 => 256
  | .b256k512 => 256
  | .b512k512 => 512

/-- Column "key bits" of R6. -/
def Conf.keyBits : Conf → Nat
  | .b128k128 => 128
  | .b128k256 => 256
  | .b256k256 => 256
  | .b256k512 => 512
  | .b512k512 => 512

/-- Column nb of R6: the state width in words. -/
def Conf.nb (cf : Conf) : Nat := cf.blockBits / 64

/-- Column nk of R6: the key width in words. -/
def Conf.nk (cf : Conf) : Nat := cf.keyBits / 64

/-- The configuration of a pair of sizes in bits, if it is legal (R6, R142). -/
def Conf.ofSizes (blk keyb : Nat) : Option Conf :=
  Conf.all.find? fun cf => cf.blockBits == blk && cf.keyBits == keyb

/-- The number a round count stands for (R6). -/
def Rounds.toNat : Rounds → Nat
  | .r10 => 10
  | .r14 => 14
  | .r18 => 18

/-- nr = NR_TABLE(configuration) (R142). -/
def NrTable.rounds (t : NrTable) : Conf → Nat
  | .b128k128 => t.b128k128.toNat
  | .b128k256 => t.b128k256.toNat
  | .b256k256 => t.b256k256.toNat
  | .b256k512 => t.b256k512.toNat
  | .b512k512 => t.b512k512.toNat

/-- SBOX[t][x] (R160, inv = 0). A table index has two bits. -/
def Params.sboxAt (p : Params) (t : Nat) (x : Byte) : Byte :=
  (p.sbox[t % 4]'(Nat.mod_lt _ (by decide)))[x.toNat]'x.isLt

/-- INV_SBOX[t][x] (R160, inv = 1). -/
def Params.invSboxAt (p : Params) (t : Nat) (x : Byte) : Byte :=
  (p.invSbox[t % 4]'(Nat.mod_lt _ (by decide)))[x.toNat]'x.isLt

/-- The matrix entry M[r][k], row r and column k (R205); 0 outside the matrix. -/
def ByteMatrix.entry (M : ByteMatrix) (r k : Nat) : Byte :=
  if h : r < 8 ∧ k < 8 then (M[r]'h.1)[k]'h.2 else 0

/-- LAT(opcode, configuration) (R389): the cycles from a CMD write to BUSY = 0. A latency of 0 is the
atomic model of R30, where the command completes at the CMD write itself. -/
def Params.latency (p : Params) (opc nb nk : Byte) : Nat :=
  (p.lat.lookup ⟨opc, nb, nk⟩).getD 0

/-- The nr column of R6, the default of NR_TABLE (D9). -/
def Params.defaultNrTable : NrTable := ⟨.r10, .r14, .r14, .r18, .r18⟩

/-- The default MDS, written out (R206). -/
def Params.defaultMds : ByteMatrix :=
  #v[#v[0x01, 0x01, 0x05, 0x01, 0x08, 0x06, 0x07, 0x04],
     #v[0x04, 0x01, 0x01, 0x05, 0x01, 0x08, 0x06, 0x07],
     #v[0x07, 0x04, 0x01, 0x01, 0x05, 0x01, 0x08, 0x06],
     #v[0x06, 0x07, 0x04, 0x01, 0x01, 0x05, 0x01, 0x08],
     #v[0x08, 0x06, 0x07, 0x04, 0x01, 0x01, 0x05, 0x01],
     #v[0x01, 0x08, 0x06, 0x07, 0x04, 0x01, 0x01, 0x05],
     #v[0x05, 0x01, 0x08, 0x06, 0x07, 0x04, 0x01, 0x01],
     #v[0x01, 0x05, 0x01, 0x08, 0x06, 0x07, 0x04, 0x01]]

/-- The default MDS_INV, written out (R206). -/
def Params.defaultMdsInv : ByteMatrix :=
  #v[#v[0xAD, 0x95, 0x76, 0xA8, 0x2F, 0x49, 0xD7, 0xCA],
     #v[0xCA, 0xAD, 0x95, 0x76, 0xA8, 0x2F, 0x49, 0xD7],
     #v[0xD7, 0xCA, 0xAD, 0x95, 0x76, 0xA8, 0x2F, 0x49],
     #v[0x49, 0xD7, 0xCA, 0xAD, 0x95, 0x76, 0xA8, 0x2F],
     #v[0x2F, 0x49, 0xD7, 0xCA, 0xAD, 0x95, 0x76, 0xA8],
     #v[0xA8, 0x2F, 0x49, 0xD7, 0xCA, 0xAD, 0x95, 0x76],
     #v[0x76, 0xA8, 0x2F, 0x49, 0xD7, 0xCA, 0xAD, 0x95],
     #v[0x95, 0x76, 0xA8, 0x2F, 0x49, 0xD7, 0xCA, 0xAD]]

/-- The parameters the reset state carries: the spec's defaults where it gives one (R7), the free
bijections `Config.sboxPerm` and their inverses for the OPEN tables (R8), and no listed latency. -/
def Params.default : Params where
  sbox := Vector.ofFn fun t => Vector.ofFn fun x => Config.sboxPerm t (BitVec.ofFin x)
  invSbox := Vector.ofFn fun t => Vector.ofFn fun x => (Config.sboxPerm t).symm (BitVec.ofFin x)
  mds := Params.defaultMds
  mdsInv := Params.defaultMdsInv
  nrTable := Params.defaultNrTable
  ksRotation := .doc
  lat := []

end Sys2Proof
end

