-- ==== Sys2Proof/Machine/State.lean ====
section
/-!
DEFINITION. The state of the block and of the host that drives it, as plain data, with the reasons a
step can stop and the state after reset (rules R30 to R52, R380, R384). The block has no memory and no
program counter (R31, R70): its whole address space is the host registers.
-/

namespace Sys2Proof.Machine

/-- The lifecycle state LC (R32). Encoding 3 is never held, so it has no constructor (U15). -/
inductive Lifecycle where
  /-- 0: no context -/
  | none
  /-- 1: parameters validated, buffers zero -/
  | created
  /-- 2: round keys populated -/
  | keyExpanded
  deriving DecidableEq, Repr

/-- The error codes STATUS.LAST_ERR can hold (R341). Codes 0x06..0xFF are never produced, so they have
no constructor (U13). -/
inductive ErrorCode where
  | ok
  | unsupportedConfiguration
  | invalidState
  | illegalCommand
  | range
  /-- Reserved and never raised (R350). -/
  | allocationFailure
  deriving DecidableEq, Repr

/-- One cycle of the block's inputs: what the host does on the bus, or the reset input. -/
inductive HostEvent where
  /-- The host makes no access in this cycle. -/
  | idle
  /-- `MemRead(addr, width)` (R14, R75). -/
  | read (addr width : Nat)
  /-- `MemWrite(addr, width, v)` (R14, R75). -/
  | write (addr width : Nat) (v : Word)
  /-- `poll` (R113): `rd STATUS`, repeated while BUSY is 1; the host keeps the value that ends it. -/
  | poll
  /-- The host waits for a signal from the block, and no such signal exists (R349, U24). -/
  | awaitSignal
  /-- Reset is asserted (R380). -/
  | reset
  deriving DecidableEq, Repr

/-- A command the engine is executing: the word written to CMD, and the cycles left until it completes
(R384, R389). -/
structure Running where
  cmd : Word
  left : Nat
  deriving DecidableEq, Repr

/-- The state a step reads and writes. The parameters of R7 stand in it because a step has no other
argument (R52 has a model take them as one); no step changes them. -/
structure State where
  /-- the parameters (R7, R39, R52) -/
  params : Params
  /-- LC, the lifecycle state (R32) -/
  lc : Lifecycle
  /-- NB, the state width in words (R33) -/
  nb : Byte
  /-- NK, the key width in words (R33) -/
  nk : Byte
  /-- NR, the round count (R33) -/
  nr : Byte
  /-- STATE[0..7], the cipher state (R34), which DOUT reads (R48) -/
  state : Block
  /-- RK[0..18][0..7], the round-key file (R35) -/
  rk : RkFile
  /-- Kt (R38) -/
  kt : Block
  /-- tmv (R38) -/
  tmv : Block
  /-- kt_round (R38) -/
  ktRound : Block
  /-- initial_data (R38) -/
  initialData : Block
  /-- k0 (R38) -/
  k0 : Block
  /-- k1 (R38) -/
  k1 : Block
  /-- DIN[0..7] (R46) -/
  din : Block
  /-- KEY[0..7] (R47) -/
  key : Block
  /-- SOUT (R45) -/
  sout : Word
  /-- STATUS.ERR_SEEN (R43) -/
  errSeen : Bool
  /-- STATUS.PROTO_ERR (R43, R352) -/
  protoErr : Bool
  /-- STATUS.LAST_ERR (R43) -/
  lastErr : ErrorCode
  /-- the command being executed, if any; STATUS.BUSY is 1 exactly then (R43, R384) -/
  running : Option Running
  /-- the host's accesses and the reset input still to come, in order (R52, R79) -/
  pending : List HostEvent
  /-- the values the host's reads have returned, the newest first (R14) -/
  got : List Word
  /-- how many unspecified reads have been made: the model's own counter for `Config.busyRead` (R386) -/
  freeIdx : Nat
  deriving DecidableEq, Repr

/-- Why a step stops with a fault. No command raises one: a command error is recorded in STATUS and the
block goes on (R340, R347). -/
inductive Fault where
  /-- Raised by the step when the host waits on a signal and no command runs: the block has no interrupt
  output, so nothing ever signals the host (R349, U24: stuck, no further step). Safe: the hardware stays
  as it is. -/
  | hostWaitsForSignal
  deriving DecidableEq, Repr

/-- Why a step is refused. -/
inductive Refusal where
  /-- Raised by `exec` for a command that has no meaning in the model yet. Safe. -/
  | notModelled (mnemonic : String)
  /-- Raised by the step for a host access that is not 64 bits wide, not at a multiple of 8, or above
  0xF8: such an access has no step (R75, U12). Safe. -/
  | badAccess (addr width : Nat)
  deriving DecidableEq, Repr

/-- The outcome of a step, with this machine's reasons. -/
abbrev Result := Host.Outcome State Fault Refusal

/-- A block of 8 zero words. -/
def zeroBlock : Block := Vector.replicate 8 0

/-- A round-key file of zero words. -/
def zeroRk : RkFile := Vector.replicate 19 zeroBlock

/-- The state right after reset (R51, R380): everything 0, LC = NONE, no command running, no host access
pending. The parameters are the defaults of R7. -/
def State.reset : State where
  params := Params.default
  lc := .none
  nb := 0
  nk := 0
  nr := 0
  state := zeroBlock
  rk := zeroRk
  kt := zeroBlock
  tmv := zeroBlock
  ktRound := zeroBlock
  initialData := zeroBlock
  k0 := zeroBlock
  k1 := zeroBlock
  din := zeroBlock
  key := zeroBlock
  sout := 0
  errSeen := false
  protoErr := false
  lastErr := .ok
  running := none
  pending := []
  got := []
  freeIdx := 0

end Sys2Proof.Machine
end

