-- ==== Sys2Proof/Machine/Flags.lean ====
section
/-!
DEFINITION. The status bits and the two words the host reads them in (rules R43, R44, R50, R341). The
block has no arithmetic flags or condition codes.
-/

namespace Sys2Proof.Machine

/-- The encoding of LC (R32). -/
def Lifecycle.code : Lifecycle → Nat
  | .none => 0
  | .created => 1
  | .keyExpanded => 2

/-- The code column of R341. -/
def ErrorCode.code : ErrorCode → Nat
  | .ok => 0x00
  | .unsupportedConfiguration => 0x01
  | .invalidState => 0x02
  | .illegalCommand => 0x03
  | .range => 0x04
  | .allocationFailure => 0x05

/-- STATUS.BUSY: 1 while a command executes (R43). -/
def State.busy (s : State) : Bool := s.running.isSome

/-- The word a read of STATUS returns (R43): BUSY in bit 0, ERR_SEEN in bit 1, LC in bits 3:2, PROTO_ERR
in bit 4, LAST_ERR in bits 15:8, every other bit 0. -/
def State.statusWord (s : State) : Word :=
  BitVec.ofNat 64 (s.busy.toNat + s.errSeen.toNat * 2 ^ 1 + s.lc.code * 2 ^ 2 + s.protoErr.toNat * 2 ^ 4
    + s.lastErr.code * 2 ^ 8)

/-- The word a read of CONFIG returns (R44): NB, NK and NR in bits 7:0, 15:8 and 23:16, the block and the
key size in bits in bits 47:32 and 63:48; all zero when LC = NONE. -/
def State.configWord (s : State) : Word :=
  match s.lc with
  | .none => 0
  | .created | .keyExpanded =>
    BitVec.ofNat 64 (s.nb.toNat + s.nk.toNat * 2 ^ 8 + s.nr.toNat * 2 ^ 16 + 64 * s.nb.toNat * 2 ^ 32
      + 64 * s.nk.toNat * 2 ^ 48)

end Sys2Proof.Machine
end

