-- ==== Sys2Proof/Machine/Ops.lean ====
section
/-!
DEFINITION. The operations every command's meaning is written over: error entry and completion (rules
R344, R345), the lifecycle check (R343, R346), the write of the cipher state, and the clear strobe (R140).
-/

namespace Sys2Proof.Machine

/-- Error entry (R344), the block's only exception: LAST_ERR takes the code, ERR_SEEN is set, and nothing
else changes. There is no vector, no saved pc and no return (R347, R348). -/
def raise (e : ErrorCode) (s : State) : Result :=
  .next { s with lastErr := e, errSeen := true }

/-- Completion without an error (R345): LAST_ERR <- 0, and ERR_SEEN stays as it was. -/
def complete (s : State) : Result :=
  .next { s with lastErr := .ok }

/-- The "lifecycle required" column of R108. -/
inductive LcReq where
  /-- any -/
  | any
  /-- CREATED or KEY_EXPANDED -/
  | context
  /-- KEY_EXPANDED -/
  | expanded
  deriving DecidableEq, Repr

/-- The set of lifecycle states a requirement allows (R343). -/
def LcReq.allows : LcReq → Lifecycle → Bool
  | .any, _ => true
  | .context, .none => false
  | .context, .created => true
  | .context, .keyExpanded => true
  | .expanded, .none => false
  | .expanded, .created => false
  | .expanded, .keyExpanded => true

end Sys2Proof.Machine

/-- The "lifecycle required" column of R108. -/
def Sys2Proof.Op.requires : Sys2Proof.Op → Sys2Proof.Machine.LcReq
  | .init | .teardown | .gfMul | .sbox | .invSbox => .any
  | .encipher | .decipher | .addRk | .subRk | .xorRk => .expanded
  | .keyExpand | .loadState | .subBytes | .invSubBytes | .shiftRows | .invShiftRows => .context
  | .mixColumns | .invMixColumns | .encRound | .decRound | .addDin | .xorDin => .context

namespace Sys2Proof.Machine

/-- The lifecycle check comes before every check of an operand's value (R343, R346). -/
def guarded (o : Op) (s : State) (r : Result) : Result :=
  if o.requires.allows s.lc then r else raise .invalidState s

/-- nb as a number of words (R33). -/
def State.cols (s : State) : Nat := s.nb.toNat

/-- STATE[0..nb-1] <- new; the other words of STATE stay (R15, R34). -/
def State.putState (s : State) (new : Block) : State :=
  { s with state := Block.merge s.cols new s.state }

/-- SOUT <- zext_64(y) (R45). -/
def State.putSout (s : State) (y : Byte) : State :=
  { s with sout := y.setWidth 64 }

/-- The clear strobe (R140): STATE, RK and the key-schedule scratch become zero. -/
def State.clearContext (s : State) : State :=
  { s with
    state := zeroBlock, rk := zeroRk, kt := zeroBlock, tmv := zeroBlock, ktRound := zeroBlock,
    initialData := zeroBlock, k0 := zeroBlock, k1 := zeroBlock }

/-- Reset (R380, R51): every piece of the block's state takes its reset value and a running command is
abandoned. The parameters, and what is not the block's (the host's accesses and what it has read, and the
counter of unspecified reads), stay. -/
def State.resetBlock (s : State) : State :=
  { State.reset with params := s.params, pending := s.pending, got := s.got, freeIdx := s.freeIdx }

end Sys2Proof.Machine
end

