-- ==== Sys2Proof/Machine/Operands.lean ====
section
/-!
DEFINITION. Where a command's block operands come from (rules R111, R84): DIN[0..nb-1], KEY[0..nk-1], RK[j]
and windows of a key.
-/

namespace Sys2Proof.Machine

/-- The words lo .. lo+n-1 of a block, as an n-word block (R282, R284). -/
def window (n lo : Nat) (b : Block) : Block := Block.ofWords n fun i => Block.word b (lo + i)

/-- DIN[0..nb-1], copied in (R84). -/
def State.dataIn (s : State) : Block := window s.cols 0 s.din

/-- KEY[0..nk-1], read once (R84, R281). -/
def State.keyIn (s : State) : Block := window s.nk.toNat 0 s.key

/-- RK[j] (R104). -/
def State.roundKey (s : State) (j : Nat) : Block := RkFile.block s.rk j

/-- The operand check of a round-key index: IDX greater than NR is a range error (R104, R341). -/
def State.indexOutOfRange (s : State) (j : Nat) : Bool := decide (s.nr.toNat < j)

end Sys2Proof.Machine
end

