-- ==== Sys2Proof/Machine/Diffusion.lean ====
section
/-!
DEFINITION. The GF(2^8) multiplier GFMUL and the MDS multiplier MDSMUL (rules R200 to R211): GF_MUL,
MIX_COLUMNS and INV_MIX_COLUMNS.
-/

namespace Sys2Proof.Machine

/-- `n` iterations of the double-and-reduce loop of R201, on the registers r, x and y. -/
def gmulLoop : Nat → Byte → Byte → Byte → Byte
  | 0, r, _, _ => r
  | n + 1, r, x, y =>
    gmulLoop n (if y.getLsbD 0 then r ^^^ x else r)
      (if x.getLsbD 7 then x <<< 1 ^^^ 0x1D#8 else x <<< 1) (y >>> 1)

/-- gmul, the GF(2^8) product modulo 0x11D (R201). -/
def gmul (a b : Byte) : Byte := gmulLoop 8 0 a b

/-- The column product, the matrix times the column (R205). -/
def colmul (M : ByteMatrix) (w : Word) : Word :=
  packWord fun r => xorBytes fun k => gmul (M.entry r k) (byteOf w k)

/-- MixColumns (R207): every column times MDS, from the input state. -/
def mixColumns (p : Params) (nb : Nat) (S : Block) : Block :=
  Block.ofWords nb fun c => colmul p.mds (Block.word S c)

/-- InvMixColumns (R208): every column times MDS_INV. -/
def invMixColumns (p : Params) (nb : Nat) (S : Block) : Block :=
  Block.ofWords nb fun c => colmul p.mdsInv (Block.word S c)

/-- GF_MUL (R203): SOUT <- gmul(a, b), in every lifecycle state. -/
def execGfMul (a b : Nat) (s : State) : Result :=
  guarded .gfMul s <| complete <| s.putSout (gmul (BitVec.ofNat 8 a) (BitVec.ofNat 8 b))

/-- MIX_COLUMNS (R209). -/
def execMixColumns (s : State) : Result :=
  guarded .mixColumns s <| complete <| s.putState (mixColumns s.params s.cols s.state)

/-- INV_MIX_COLUMNS (R210). -/
def execInvMixColumns (s : State) : Result :=
  guarded .invMixColumns s <| complete <| s.putState (invMixColumns s.params s.cols s.state)

end Sys2Proof.Machine
end

