-- ==== Sys2Proof/Machine/Mixing.lean ====
section
/-!
DEFINITION. The round-key mixer RKMIX and the state load (rules R230 to R239): LOAD_STATE, ADD_RK, SUB_RK,
XOR_RK, ADD_DIN and XOR_DIN.
-/

namespace Sys2Proof.Machine

/-- AddKey (R231): word by word, modulo 2^64; no carry crosses a word (R230). -/
def addKey (nb : Nat) (S K : Block) : Block :=
  Block.ofWords nb fun i => Block.word S i + Block.word K i

/-- SubKey (R231). -/
def subKey (nb : Nat) (S K : Block) : Block :=
  Block.ofWords nb fun i => Block.word S i - Block.word K i

/-- XorKey (R231). -/
def xorKey (nb : Nat) (S K : Block) : Block :=
  Block.ofWords nb fun i => Block.word S i ^^^ Block.word K i

/-- LOAD_STATE (R233). -/
def execLoadState (s : State) : Result :=
  guarded .loadState s <| complete <| s.putState s.dataIn

/-- ADD_RK (R234): the lifecycle check, the range check, then AddKey with RK[j]. -/
def execAddRk (j : Nat) (s : State) : Result :=
  guarded .addRk s <|
    if s.indexOutOfRange j then raise .range s
    else complete <| s.putState (addKey s.cols s.state (s.roundKey j))

/-- SUB_RK (R235). -/
def execSubRk (j : Nat) (s : State) : Result :=
  guarded .subRk s <|
    if s.indexOutOfRange j then raise .range s
    else complete <| s.putState (subKey s.cols s.state (s.roundKey j))

/-- XOR_RK (R236). -/
def execXorRk (j : Nat) (s : State) : Result :=
  guarded .xorRk s <|
    if s.indexOutOfRange j then raise .range s
    else complete <| s.putState (xorKey s.cols s.state (s.roundKey j))

/-- ADD_DIN (R237). -/
def execAddDin (s : State) : Result :=
  guarded .addDin s <| complete <| s.putState (addKey s.cols s.state s.dataIn)

/-- XOR_DIN (R238). -/
def execXorDin (s : State) : Result :=
  guarded .xorDin s <| complete <| s.putState (xorKey s.cols s.state s.dataIn)

end Sys2Proof.Machine
end

