-- ==== Sys2Proof/Machine/Permutation.lean ====
section
/-!
DEFINITION. The row-cyclic permutation REWIRE (rules R180 to R186): SHIFT_ROWS and INV_SHIFT_ROWS.
-/

namespace Sys2Proof.Machine

/-- The shift amount of row r, `floor(r · nb / 8)` (R181). -/
def shiftAmount (nb r : Nat) : Nat := r * nb / 8

/-- ShiftRows (R182): row r of column c comes from column (c - shift(nb, r)) mod nb. -/
def shiftRows (nb : Nat) (S : Block) : Block :=
  Block.ofWords nb fun c => packWord fun r =>
    byteOf (Block.word S ((c + nb - shiftAmount nb r) % nb)) r

/-- InvShiftRows (R183): row r of column c comes from column (c + shift(nb, r)) mod nb. -/
def invShiftRows (nb : Nat) (S : Block) : Block :=
  Block.ofWords nb fun c => packWord fun r => byteOf (Block.word S ((c + shiftAmount nb r) % nb)) r

/-- SHIFT_ROWS (R184). -/
def execShiftRows (s : State) : Result :=
  guarded .shiftRows s <| complete <| s.putState (shiftRows s.cols s.state)

/-- INV_SHIFT_ROWS (R185). -/
def execInvShiftRows (s : State) : Result :=
  guarded .invShiftRows s <| complete <| s.putState (invShiftRows s.cols s.state)

end Sys2Proof.Machine
end

