-- ==== Sys2Proof/Machine/Substitution.lean ====
section
/-!
DEFINITION. The substitution-box selector SBSEL (rules R160 to R168): SUB_BYTES, INV_SUB_BYTES, SBOX and
INV_SBOX.
-/

namespace Sys2Proof.Machine

/-- SubBytes (R162): byte j of every word goes through table j mod 4 (R161). -/
def subBytes (p : Params) (nb : Nat) (S : Block) : Block :=
  Block.ofWords nb fun i => packWord fun j => p.sboxAt (j % 4) (byteOf (Block.word S i) j)

/-- InvSubBytes (R163). -/
def invSubBytes (p : Params) (nb : Nat) (S : Block) : Block :=
  Block.ofWords nb fun i => packWord fun j => p.invSboxAt (j % 4) (byteOf (Block.word S i) j)

/-- SUB_BYTES (R164). -/
def execSubBytes (s : State) : Result :=
  guarded .subBytes s <| complete <| s.putState (subBytes s.params s.cols s.state)

/-- INV_SUB_BYTES (R165). -/
def execInvSubBytes (s : State) : Result :=
  guarded .invSubBytes s <| complete <| s.putState (invSubBytes s.params s.cols s.state)

/-- SBOX (R166): SOUT <- SBOX[t][x], in every lifecycle state. -/
def execSbox (t x : Nat) (s : State) : Result :=
  guarded .sbox s <| complete <| s.putSout (s.params.sboxAt t (BitVec.ofNat 8 x))

/-- INV_SBOX (R167): SOUT <- INV_SBOX[t][x], in every lifecycle state. -/
def execInvSbox (t x : Nat) (s : State) : Result :=
  guarded .invSbox s <| complete <| s.putSout (s.params.invSboxAt t (BitVec.ofNat 8 x))

end Sys2Proof.Machine
end

