-- ==== Sys2Proof/Machine/Round.lean ====
section
/-!
DEFINITION. The round unit ROUND (rules R260 to R265): ENC_ROUND and DEC_ROUND.
-/

namespace Sys2Proof.Machine

/-- EncRound (R261). -/
def encRound (p : Params) (nb : Nat) (S : Block) : Block :=
  mixColumns p nb (shiftRows nb (subBytes p nb S))

/-- DecRound (R262). -/
def decRound (p : Params) (nb : Nat) (S : Block) : Block :=
  invSubBytes p nb (invShiftRows nb (invMixColumns p nb S))

/-- ENC_ROUND (R263). -/
def execEncRound (s : State) : Result :=
  guarded .encRound s <| complete <| s.putState (encRound s.params s.cols s.state)

/-- DEC_ROUND (R264). -/
def execDecRound (s : State) : Result :=
  guarded .decRound s <| complete <| s.putState (decRound s.params s.cols s.state)

end Sys2Proof.Machine
end

