-- ==== Sys2Proof/Machine/Drivers.lean ====
section
/-!
DEFINITION. The encipher and decipher drivers DRIVER (rules R320 to R325): ENCIPHER and DECIPHER.
-/

namespace Sys2Proof.Machine

/-- The interior rounds `round = r .. r+n-1` of R321: EncRound, then XorKey with RK[round]. -/
def encRounds (p : Params) (nb : Nat) (rk : RkFile) : Nat → Nat → Block → Block
  | 0, _, S => S
  | n + 1, r, S => encRounds p nb rk n (r + 1) (xorKey nb (encRound p nb S) (RkFile.block rk r))

/-- E_K (R321, R324): the STATE that ENCIPHER leaves for the block P. -/
def encipherBlock (p : Params) (nb nr : Nat) (rk : RkFile) (P : Block) : Block :=
  let S := addKey nb P (RkFile.block rk 0)
  let S := encRounds p nb rk (nr - 1) 1 S
  addKey nb (encRound p nb S) (RkFile.block rk nr)

/-- The interior rounds `round = n downto 1` of R322: DecRound, then XorKey with RK[round]. -/
def decRounds (p : Params) (nb : Nat) (rk : RkFile) : Nat → Block → Block
  | 0, S => S
  | n + 1, S => decRounds p nb rk n (xorKey nb (decRound p nb S) (RkFile.block rk (n + 1)))

/-- D_K (R322, R324): the STATE that DECIPHER leaves for the block C. -/
def decipherBlock (p : Params) (nb nr : Nat) (rk : RkFile) (C : Block) : Block :=
  let S := subKey nb C (RkFile.block rk nr)
  let S := decRounds p nb rk (nr - 1) S
  subKey nb (decRound p nb S) (RkFile.block rk 0)

/-- ENCIPHER (R321). -/
def execEncipher (s : State) : Result :=
  guarded .encipher s <| complete <|
    s.putState (encipherBlock s.params s.cols s.nr.toNat s.rk s.dataIn)

/-- DECIPHER (R322). -/
def execDecipher (s : State) : Result :=
  guarded .decipher s <| complete <|
    s.putState (decipherBlock s.params s.cols s.nr.toNat s.rk s.dataIn)

end Sys2Proof.Machine
end

