-- ==== Sys2Proof/Machine/KeySchedule.lean ====
section
/-!
DEFINITION. The round-key scheduler KSCHED (rules R280 to R293): KEY_EXPAND, in the three stages of R281.
-/

namespace Sys2Proof.Machine

/-- The registers the key schedule works on (R38, R280): STATE, the scratch and the round-key file. -/
structure Sched where
  state : Block
  kt : Block
  tmv : Block
  ktRound : Block
  initialData : Block
  k0 : Block
  k1 : Block
  rk : RkFile
  deriving DecidableEq, Repr

/-- The STATE stage 1 starts from: its first word is nb + nk + 1 and the others are 0 (R282). -/
def ktSeed (nb nk : Nat) : Block :=
  Block.ofWords nb fun i => if i = 0 then BitVec.ofNat 64 (nb + nk + 1) else 0

/-- The operand k1 of stage 1 (R282): the next nb words of a double-length key, else k0 again. -/
def secondHalf (nb nk : Nat) (key : Block) : Block :=
  if nk = nb then window nb 0 key else window nb nb key

/-- Stage 1, the intermediate key Kt (R282). -/
def ktDerive (p : Params) (nb nk : Nat) (key : Block) : Block :=
  let k0 := window nb 0 key
  let k1 := secondHalf nb nk key
  let S := encRound p nb (addKey nb (ktSeed nb nk) k0)
  let S := encRound p nb (xorKey nb S k1)
  encRound p nb (addKey nb S k0)

/-- The even-key core (R283): two rounds and three mixings, ending with AddKey. -/
def evenKey (p : Params) (nb : Nat) (w ktr : Block) : Block :=
  let S := encRound p nb (addKey nb w ktr)
  let S := encRound p nb (xorKey nb S ktr)
  addKey nb S ktr

/-- The first value of the counter tmv (R284): every word is 0x0001000100010001. -/
def tmvInit (nb : Nat) : Block := Block.ofWords nb fun _ => 0x0001000100010001

/-- `tmv[i] <- tmv[i] << 1` for i < nb (R284). -/
def shiftTmv (nb : Nat) (tmv : Block) : Block := Block.ofWords nb fun i => Block.word tmv i <<< 1

/-- `d[m .. nk-1] ++ d[0 .. m-1]` on nk words: a rotation left by m words (R285). -/
def rotWords (nk m : Nat) (d : Block) : Block :=
  Block.ofWords nk fun i => Block.word d ((i + m) % nk)

/-- The rotation of initial_data between pairs (R285). -/
def rotateKey (ks : KsRotation) (nb nk : Nat) (d : Block) : Block :=
  match ks with
  | .doc => if nk = nb then d else rotWords nk nb d
  | .ref1w => rotWords nk 1 d

/-- `kt_round <- Kt +64 tmv; RK[idx] <- EvenKey(window, kt_round)`, with the window of initial_data that
starts at word lo (R284). -/
def evenStep (p : Params) (nb idx lo : Nat) (k : Sched) : Sched :=
  let ktr := addKey nb k.kt k.tmv
  let v := evenKey p nb (window nb lo k.initialData) ktr
  { k with ktRound := ktr, state := v, rk := RkFile.write nb k.rk idx v }

/-- The loop of stage 2 (R284) from even index idx on, for at most the given number of iterations. NR ≤ 18
needs at most 10. The second test of NR stands inside the double-length branch. -/
def evenLoop (p : Params) (nb nk nr : Nat) : Nat → Nat → Sched → Sched
  | 0, _, k => k
  | n + 1, idx, k =>
    let k := evenStep p nb idx 0 k
    if idx = nr then k
    else if nk = nb then
      let k := { k with tmv := shiftTmv nb k.tmv }
      let k := { k with initialData := rotateKey p.ksRotation nb nk k.initialData }
      evenLoop p nb nk nr n (idx + 2) k
    else
      let k := { k with tmv := shiftTmv nb k.tmv }
      let k := evenStep p nb (idx + 2) nb k
      if idx + 2 = nr then k
      else
        let k := { k with tmv := shiftTmv nb k.tmv }
        let k := { k with initialData := rotateKey p.ksRotation nb nk k.initialData }
        evenLoop p nb nk nr n (idx + 4) k

/-- RotBytes (R288): the byte buffer rotated toward index 0. -/
def rotBytes (nb n : Nat) (X : Block) : Block :=
  Block.ofBytes nb fun k => Block.byte X ((k + n) % (8 * nb))

/-- Stage 3 (R287), n odd keys from index i on: RK[i] <- RotBytes(RK[i-1], 2nb+3). -/
def oddLoop (nb : Nat) : Nat → Nat → RkFile → RkFile
  | 0, _, rk => rk
  | n + 1, i, rk =>
    oddLoop nb n (i + 2) (RkFile.write nb rk i (rotBytes nb (2 * nb + 3) (RkFile.block rk (i - 1))))

/-- The whole key schedule (R281) of a key, over the round-key file rk. -/
def keySchedule (p : Params) (nb nk nr : Nat) (key : Block) (rk : RkFile) : Sched :=
  let kt := ktDerive p nb nk key
  let k : Sched :=
    { state := kt, kt := kt, tmv := tmvInit nb, ktRound := zeroBlock, initialData := window nk 0 key,
      k0 := window nb 0 key, k1 := secondHalf nb nk key, rk := rk }
  let k := evenLoop p nb nk nr 10 0 k
  { k with rk := oddLoop nb (nr / 2) 1 k.rk }

/-- KEY_EXPAND (R281): the three stages, then LC <- KEY_EXPANDED. STATE is scratch (R289). -/
def execKeyExpand (s : State) : Result :=
  guarded .keyExpand s <|
    let k := keySchedule s.params s.cols s.nk.toNat s.nr.toNat s.keyIn s.rk
    complete
      { s.putState k.state with
        rk := k.rk, kt := k.kt, tmv := k.tmv, ktRound := k.ktRound, initialData := k.initialData,
        k0 := k.k0, k1 := k.k1, lc := .keyExpanded }

end Sys2Proof.Machine
end

