-- ==== Sys2Proof/Machine/Lifecycle.lean ====
section
/-!
DEFINITION. The context unit CTX (rules R140 to R147): INIT and TEARDOWN.
-/

namespace Sys2Proof.Machine

/-- INIT (R141): CFG of R142 decides; a legal pair makes a fresh context in CREATED, any other pair raises
UNSUPPORTED_CONFIGURATION and leaves the context as it was (R144). -/
def execInit (blk keyb : Nat) (s : State) : Result :=
  guarded .init s <|
    match Conf.ofSizes blk keyb with
    | none => raise .unsupportedConfiguration s
    | some cf =>
      complete
        { s.clearContext with
          nb := BitVec.ofNat 8 cf.nb, nk := BitVec.ofNat 8 cf.nk,
          nr := BitVec.ofNat 8 (s.params.nrTable.rounds cf), lc := .created }

/-- TEARDOWN (R145): the context becomes zero and LC <- NONE; in NONE nothing but LAST_ERR changes. -/
def execTeardown (s : State) : Result :=
  guarded .teardown s <| complete { s.clearContext with nb := 0, nk := 0, nr := 0, lc := .none }

end Sys2Proof.Machine
end

