-- ==== Sys2Proof/Machine/Dispatch.lean ====
section
/-! DEFINITION. One arm for each command of the opcode map (rule R108): each calls its meaning. -/

namespace Sys2Proof.Machine

def exec (i : Instr) (s : State) : Host.Outcome State Fault Refusal :=
  match i with
  | .init blk keyb => Sys2Proof.Machine.execInit blk keyb s
  | .teardown => Sys2Proof.Machine.execTeardown s
  | .keyExpand => Sys2Proof.Machine.execKeyExpand s
  | .encipher => Sys2Proof.Machine.execEncipher s
  | .decipher => Sys2Proof.Machine.execDecipher s
  | .loadState => Sys2Proof.Machine.execLoadState s
  | .subBytes => Sys2Proof.Machine.execSubBytes s
  | .invSubBytes => Sys2Proof.Machine.execInvSubBytes s
  | .shiftRows => Sys2Proof.Machine.execShiftRows s
  | .invShiftRows => Sys2Proof.Machine.execInvShiftRows s
  | .mixColumns => Sys2Proof.Machine.execMixColumns s
  | .invMixColumns => Sys2Proof.Machine.execInvMixColumns s
  | .encRound => Sys2Proof.Machine.execEncRound s
  | .decRound => Sys2Proof.Machine.execDecRound s
  | .addRk j => Sys2Proof.Machine.execAddRk j s
  | .subRk j => Sys2Proof.Machine.execSubRk j s
  | .xorRk j => Sys2Proof.Machine.execXorRk j s
  | .addDin => Sys2Proof.Machine.execAddDin s
  | .xorDin => Sys2Proof.Machine.execXorDin s
  | .gfMul a b => Sys2Proof.Machine.execGfMul a b s
  | .sbox t x => Sys2Proof.Machine.execSbox t x s
  | .invSbox t x => Sys2Proof.Machine.execInvSbox t x s

end Sys2Proof.Machine
end

