-- ==== Sys2Proof/Machine/Engine.lean ====
section
/-!
DEFINITION. The engine (rules R30, R107, R384, R389): running a command word, starting a command at a CMD
write, and the engine's part of a cycle.
-/

namespace Sys2Proof.Machine

/-- The command of word c runs: it is decoded (R107) and executed, or it raises ILLEGAL_COMMAND, which
changes only STATUS (R344). -/
def runCommand (c : Word) (s : State) : Result :=
  match decode c with
  | .ok i => exec i s
  | .error _ => raise .illegalCommand s

/-- LAT of the command word c in the configuration of s (R389). -/
def State.latencyOf (s : State) (c : Word) : Nat :=
  s.params.latency (BitVec.ofNat 8 (field c 7 0)) s.nb s.nk

/-- A CMD write while no command runs (R42, R384). With latency 0 the command completes within the write
(R30, R79); otherwise BUSY is 1 for that many cycles. -/
def startCommand (c : Word) (s : State) : Result :=
  if s.latencyOf c = 0 then runCommand c s
  else .next { s with running := some ⟨c, s.latencyOf c⟩ }

/-- The engine's part of a cycle: a running command comes one cycle nearer to its end, and at its end its
effects happen and BUSY becomes 0 (R384). The command reads the same DIN, KEY and context it would have
read when it started, since none of them can change while BUSY is 1 (R79, R385). -/
def tick (s : State) : Result :=
  match s.running with
  | none => .next s
  | some r =>
    if r.left ≤ 1 then runCommand r.cmd { s with running := none }
    else .next { s with running := some ⟨r.cmd, r.left - 1⟩ }

end Sys2Proof.Machine
end

