-- ==== Sys2Proof/Machine/Bus.lean ====
section
/-!
DEFINITION. The host bus (rules R40 to R49, R70 to R85, R384 to R386): the host register map, the accesses
and the cycle.
-/

namespace Sys2Proof.Machine

/-- R75: every access is 8 bytes wide, at a multiple of 8 in 0x00..0xF8. -/
def accessOk (addr width : Nat) : Bool :=
  decide (width = 8) && decide (addr % 8 = 0) && decide (addr ≤ 0xF8)

/-- What a read of host register n returns while BUSY is 0 (R41 to R49). CMD, KEY and the reserved slots
read 0. -/
def State.readReg (s : State) (n : Nat) : Word :=
  if n = 1 then s.statusWord
  else if n = 2 then s.configWord
  else if n = 3 then s.sout
  else if 8 ≤ n ∧ n ≤ 15 then Block.word s.din (n - 8)
  else if 24 ≤ n ∧ n ≤ 31 then Block.word s.state (n - 24)
  else 0

/-- A write of host register n other than CMD while BUSY is 0 (R46, R47, R49): DIN and KEY are stored, every
other register ignores the write. -/
def State.writeReg (s : State) (n : Nat) (v : Word) : State :=
  if 8 ≤ n ∧ n ≤ 15 then { s with din := s.din.setIfInBounds (n - 8) v }
  else if 16 ≤ n ∧ n ≤ 23 then { s with key := s.key.setIfInBounds (n - 16) v }
  else s

/-- The host reads register n. While BUSY is 1 only STATUS has a defined value (R386). -/
def hostRead (n : Nat) (s : State) : State :=
  if s.busy && n != 1 then
    { s with got := Config.busyRead s.freeIdx :: s.got, freeIdx := s.freeIdx + 1 }
  else { s with got := s.readReg n :: s.got }

/-- The host writes v to register n. While BUSY is 1 the write is lost and PROTO_ERR is set (R385); a CMD
write starts a command (R42); any other write only stores (R77). -/
def hostWrite (n : Nat) (v : Word) (s : State) : Result :=
  if s.busy then tick { s with protoErr := true }
  else if n = 0 then startCommand v s
  else .next (s.writeReg n v)

/-- One cycle: the next event of the host or of the reset input, then the engine's part. A poll stays the
next event while BUSY is 1 (R113), and the STATUS values that made it repeat are not kept. -/
def cycle (s : State) : Result :=
  match s.pending with
  | [] => tick s
  | .idle :: rest => tick { s with pending := rest }
  | .read addr width :: rest =>
    if accessOk addr width then tick (hostRead (addr / 8) { s with pending := rest })
    else .refused (.badAccess addr width)
  | .write addr width v :: rest =>
    if accessOk addr width then hostWrite (addr / 8) v { s with pending := rest }
    else .refused (.badAccess addr width)
  | .poll :: rest => if s.busy then tick s else tick (hostRead 1 { s with pending := rest })
  | .awaitSignal :: _ => if s.busy then tick s else .fault .hostWaitsForSignal
  | .reset :: rest => .next { s.resetBlock with pending := rest }

end Sys2Proof.Machine
end

