-- ==== Sys2Proof/Machine/Step.lean ====
section
/-!
DEFINITION. The step of the machine: one cycle (rules R30, R384, R389), and the placing of a command word
where the next step takes it from.
-/

namespace Sys2Proof.Machine

/-- One step. -/
def step (s : State) : Host.Outcome State Fault Refusal := cycle s

/-- s with a host that next writes the command word of w to CMD, while no command runs and every command
completes at its CMD write, so that the very next step runs it (R31, R42). -/
def State.withFetchWord (s : State) (nbits w : Nat) : State :=
  { s with
    params := { s.params with lat := [] }
    running := none
    pending := .write 0 8 (tableWord nbits w) :: s.pending }

end Sys2Proof.Machine
end

