-- ==== Sys2Proof/Machine/Assembler.lean ====
section
/-!
DEFINITION. The KCMD assembler (rules R112 to R114): one line of text, the command or host access it
names, and the host accesses it expands to. Syntax has no behaviour of its own (D33): a program is the list
of host accesses it assembles to.
-/

namespace Sys2Proof.Machine

/-- A parsed line: a command, a host access, a pseudo-instruction. -/
inductive AsmLine where
  /-- a command of R112 -/
  | command (i : Instr)
  /-- `wr NAME, v` (R113) -/
  | wr (n v : Nat)
  /-- `rd NAME` (R113) -/
  | rd (n : Nat)
  /-- `poll` (R113) -/
  | poll
  /-- `SETKEY k0, ..., k(m-1)` (R114) -/
  | setKey (ks : List Nat)
  /-- `ENC p0, ..., p(m-1)` (R114) -/
  | enc (ps : List Nat)
  /-- `DEC c0, ..., c(m-1)` (R114) -/
  | dec (cs : List Nat)
  /-- `LOADS s0, ..., s(m-1)` (R114) -/
  | loads (ss : List Nat)
  /-- `CMD v`, a raw command word (R114) -/
  | raw (v : Nat)
  deriving DecidableEq, Repr

/-- `wr CMD, <encoding>` (R113). -/
def cmdWrite (i : Instr) : HostEvent := .write 0 8 (encode i)

/-- A number that fits a 64-bit register. -/
def fitsWord (v : Nat) : Bool := decide (v < 2 ^ 64)

/-- `wr NAME[0], v0`, ..., `wr NAME[m-1], v(m-1)`, for the registers from index n on. -/
def regWrites : Nat → List Nat → List HostEvent
  | _, [] => []
  | n, v :: vs => .write (8 * n) 8 (BitVec.ofNat 64 v) :: regWrites (n + 1) vs

/-- The host accesses of a line under the active configuration (nb, nk), or none if the assembler rejects
it: an operand that does not fit (R112), no such register (R113), or a wrong number of words (R114). -/
def assemble (nb nk : Nat) : AsmLine → Option (List HostEvent)
  | .command i => if i.wf then some [cmdWrite i] else none
  | .wr n v => if n < 32 ∧ fitsWord v then some [.write (8 * n) 8 (BitVec.ofNat 64 v)] else none
  | .rd n => if n < 32 then some [.read (8 * n) 8] else none
  | .poll => some [.poll]
  | .setKey ks =>
    if ks.length = nk ∧ ks.all fitsWord then some (regWrites 16 ks ++ [cmdWrite .keyExpand, .poll]) else none
  | .enc ps =>
    if ps.length = nb ∧ ps.all fitsWord then some (regWrites 8 ps ++ [cmdWrite .encipher, .poll]) else none
  | .dec cs =>
    if cs.length = nb ∧ cs.all fitsWord then some (regWrites 8 cs ++ [cmdWrite .decipher, .poll]) else none
  | .loads ss =>
    if ss.length = nb ∧ ss.all fitsWord then some (regWrites 8 ss ++ [cmdWrite .loadState]) else none
  | .raw v => if fitsWord v then some [.write 0 8 (BitVec.ofNat 64 v)] else none

/-- The active configuration after a line: an INIT line of a legal pair sets it, a TEARDOWN line clears it, no
other line moves it. R114 requires counts of the active configuration and does not say how the assembler knows
it. DESIGN CHOICE (log entry 18), safe: an INIT or TEARDOWN word given as `CMD v` or `wr CMD, v` does not move
it either, so a SETKEY, ENC, DEC or LOADS line after it is held to the configuration of the command lines. -/
def activeAfter (nb nk : Nat) : AsmLine → Nat × Nat
  | .command (.init blk keyb) =>
    match Conf.ofSizes blk keyb with
    | some cf => (cf.nb, cf.nk)
    | none => (nb, nk)
  | .command .teardown => (0, 0)
  | _ => (nb, nk)

/-- The host accesses of a program, line after line, from the active configuration (nb, nk) (log entry 18). -/
def assembleAll (nb nk : Nat) : List AsmLine → Option (List HostEvent)
  | [] => some []
  | l :: ls =>
    match assemble nb nk l, assembleAll (activeAfter nb nk l).1 (activeAfter nb nk l).2 ls with
    | some es, some rest => some (es ++ rest)
    | _, _ => none

/-- The text without the spaces at its ends. Only the space character counts (log entry 19). -/
def trimText (cs : List Char) : List Char :=
  ((cs.dropWhile (· == ' ')).reverse.dropWhile (· == ' ')).reverse

/-- The parts of a text between its commas. -/
def splitCommas : List Char → List (List Char)
  | [] => [[]]
  | c :: cs =>
    match splitCommas cs with
    | [] => [[]]
    | part :: parts => if c == ',' then [] :: part :: parts else (c :: part) :: parts

/-- The value of a digit in the given base. -/
def digitValue (base : Nat) (c : Char) : Option Nat :=
  let v :=
    if '0' ≤ c ∧ c ≤ '9' then c.toNat - '0'.toNat
    else if 'a' ≤ c ∧ c ≤ 'f' then c.toNat - 'a'.toNat + 10
    else if 'A' ≤ c ∧ c ≤ 'F' then c.toNat - 'A'.toNat + 10
    else base
  if v < base then some v else none

/-- The number the digits spell after those already read. -/
def digitsValue (base : Nat) : Nat → List Char → Option Nat
  | acc, [] => some acc
  | acc, c :: cs =>
    match digitValue base c with
    | some d => digitsValue base (acc * base + d) cs
    | none => none

/-- Numbers are decimal or `0x` hex (R112). DESIGN CHOICE (log entry 19): hex digits of either case, no `0X`. -/
def numberOf : List Char → Option Nat
  | [] => none
  | ['0', 'x'] => none
  | '0' :: 'x' :: cs => digitsValue 16 0 cs
  | cs => digitsValue 10 0 cs

/-- The names of the registers with their indices (R41). -/
def registerNames : List (List Char × Nat) :=
  [("CMD".toList, 0), ("STATUS".toList, 1), ("CONFIG".toList, 2), ("SOUT".toList, 3)] ++
    (List.range 8).map (fun i => ("DIN[".toList ++ [Nat.digitChar i, ']'], 8 + i)) ++
    (List.range 8).map (fun i => ("KEY[".toList ++ [Nat.digitChar i, ']'], 16 + i)) ++
    (List.range 8).map (fun i => ("DOUT[".toList ++ [Nat.digitChar i, ']'], 24 + i))

/-- The index of a register's name (R113). -/
def registerOf (name : List Char) : Option Nat := registerNames.lookup name

/-- The command of a row of R108 with the given operands, in the order of their fields (R112). -/
def Op.command : Op → List Nat → Option Instr
  | .init, [blk, keyb] => some (.init blk keyb)
  | .addRk, [j] => some (.addRk j)
  | .subRk, [j] => some (.subRk j)
  | .xorRk, [j] => some (.xorRk j)
  | .gfMul, [a, b] => some (.gfMul a b)
  | .sbox, [t, x] => some (.sbox t x)
  | .invSbox, [t, x] => some (.invSbox t x)
  | .teardown, [] => some .teardown
  | .keyExpand, [] => some .keyExpand
  | .encipher, [] => some .encipher
  | .decipher, [] => some .decipher
  | .loadState, [] => some .loadState
  | .subBytes, [] => some .subBytes
  | .invSubBytes, [] => some .invSubBytes
  | .shiftRows, [] => some .shiftRows
  | .invShiftRows, [] => some .invShiftRows
  | .mixColumns, [] => some .mixColumns
  | .invMixColumns, [] => some .invMixColumns
  | .encRound, [] => some .encRound
  | .decRound, [] => some .decRound
  | .addDin, [] => some .addDin
  | .xorDin, [] => some .xorDin
  | _, _ => none

/-- A line with its first word and its operands' texts. -/
def lineOf (head : List Char) (ops : List (List Char)) : Option AsmLine :=
  if head = "wr".toList then
    match ops with
    | [name, v] =>
      match registerOf name, numberOf v with
      | some n, some v => some (.wr n v)
      | _, _ => none
    | _ => none
  else if head = "rd".toList then
    match ops with
    | [name] => (registerOf name).map .rd
    | _ => none
  else
    match ops.mapM numberOf with
    | none => none
    | some vs =>
      if head = "poll".toList then if vs = [] then some .poll else none
      else if head = "SETKEY".toList then some (.setKey vs)
      else if head = "ENC".toList then some (.enc vs)
      else if head = "DEC".toList then some (.dec vs)
      else if head = "LOADS".toList then some (.loads vs)
      else if head = "CMD".toList then
        match vs with
        | [v] => some (.raw v)
        | _ => none
      else
        match Op.all.find? fun o => o.mnemonic.toList == head with
        | some o => (Op.command o vs).map .command
        | none => none

/-- The line a text spells: the mnemonic first, then operands separated by commas (R112). DESIGN CHOICE (log
entry 19), safe, where R112 gives no detail: only spaces, no tabs, stand between the words and are trimmed, and
a line with a `;` comment, as the programs of 95_test_vectors.md print them, is rejected. -/
def parseLine (text : List Char) : Option AsmLine :=
  let cs := trimText text
  let head := cs.takeWhile (· != ' ')
  let rest := trimText (cs.dropWhile (· != ' '))
  if rest = [] then lineOf head [] else lineOf head ((splitCommas rest).map trimText)

end Sys2Proof.Machine
end

