-- ==== Sys2Proof/Safety.lean ====
section
/-!
DEFINITION. The terms the claims use: the hypotheses on the parameters (rules R8, R9), the legal
configurations of a state (R33), the invariant of the machine (R34 to R37, R43, R45), the end of a run,
and several commands one after another.
-/

namespace Sys2Proof

/-- R8: InvTable[t][Table[t][x]] = x for every table index t and byte x. -/
def Params.SboxOk (p : Params) : Prop := ∀ t < 4, ∀ x : Byte, p.invSboxAt t (p.sboxAt t x) = x

/-- R9: MDS_INV · MDS = I over GF(2^8). -/
def Params.MdsOk (p : Params) : Prop :=
  ∀ r < 8, ∀ c < 8,
    xorBytes (fun k => Machine.gmul (p.mdsInv.entry r k) (p.mds.entry k c)) = if r = c then 1 else 0

/-- The hypotheses on the parameters (R8, R9). -/
def Params.Ok (p : Params) : Prop := p.SboxOk ∧ p.MdsOk

/-- The parameters' default values satisfy both hypotheses whichever bijections the OPEN tables are; this
is the record they form with tables that change nothing, for tests. -/
def Params.plain : Params :=
  { Params.default with
    sbox := Vector.replicate 4 (Vector.ofFn fun x => BitVec.ofFin x)
    invSbox := Vector.replicate 4 (Vector.ofFn fun x => BitVec.ofFin x) }

namespace Machine

/-- (NB, NK, NR) is the row cf of R6 (R33). -/
def State.HasConf (s : State) (cf : Conf) : Prop :=
  s.nb.toNat = cf.nb ∧ s.nk.toNat = cf.nk ∧ s.nr.toNat = s.params.nrTable.rounds cf

/-- (NB, NK, NR) is a row of R6. -/
def State.Configured (s : State) : Prop := ∃ cf, s.HasConf cf

/-- RK[0..nr][0..nb-1] is the output of one completed key expansion of one key (R37). -/
def State.HasSchedule (s : State) : Prop :=
  ∃ key : Block, ∀ j ≤ s.nr.toNat, ∀ i < s.cols,
    Block.word (RkFile.block s.rk j) i =
      Block.word (RkFile.block (keySchedule s.params s.cols s.nk.toNat s.nr.toNat key zeroRk).rk j) i

/-- What holds of the block after reset and after every step (R34, R35, R37, R43, R45). -/
structure State.Inv (s : State) : Prop where
  /-- LC = NONE exactly if NB = NK = NR = 0 (R37) -/
  none_iff : s.lc = .none ↔ s.nb = 0 ∧ s.nk = 0 ∧ s.nr = 0
  /-- otherwise the configuration is a row of R6 (R37) -/
  configured : s.lc ≠ .none → s.Configured
  /-- in CREATED every RK word is 0 (R37) -/
  created_rk : s.lc = .created → s.rk = zeroRk
  /-- in KEY_EXPANDED the schedule is that of one key (R37) -/
  expanded_rk : s.lc = .keyExpanded → s.HasSchedule
  /-- STATE[nb..7] is zero (R34) -/
  state_tail : ∀ i, s.cols ≤ i → Block.word s.state i = 0
  /-- every RK word outside RK[0..nr][0..nb-1] is zero (R35) -/
  rk_tail : ∀ j i, s.nr.toNat < j ∨ s.cols ≤ i → Block.word (RkFile.block s.rk j) i = 0
  /-- in NONE every RK word is 0 (R36, R145) -/
  none_rk : s.lc = .none → s.rk = zeroRk
  /-- in NONE the key-schedule scratch is zero (R38, R145) -/
  none_scratch : s.lc = .none →
    s.kt = zeroBlock ∧ s.tmv = zeroBlock ∧ s.ktRound = zeroBlock ∧ s.initialData = zeroBlock ∧
      s.k0 = zeroBlock ∧ s.k1 = zeroBlock
  /-- SOUT[63:8] is zero (R45) -/
  sout_byte : s.sout.toNat < 256
  /-- an error in LAST_ERR has set the sticky bit (R43) -/
  err_seen : s.lastErr ≠ .ok → s.errSeen = true
  /-- ALLOCATION_FAILURE is never recorded (R350) -/
  no_alloc : s.lastErr ≠ .allocationFailure
  /-- a running command has a cycle left (R384) -/
  running_left : ∀ r, s.running = some r → 1 ≤ r.left

/-- The end of a run (R391): the host's last access is done and the command it started has completed. -/
def State.Ended (s : State) : Prop := s.pending = [] ∧ s.running = none

/-- The commands of a list, one after another, each in the state the one before it left. -/
def execAll : List Instr → State → Result
  | [], s => .next s
  | i :: is, s =>
    match exec i s with
    | .next t => execAll is t
    | .fault r => .fault r
    | .refused r => .refused r

end Machine

end Sys2Proof
end

