-- ==== Sys2Proof/Certificates/Slice0/Obligations.lean ====
section
/-!
DEFINITION. The statements for the provers, each from the spec's rules. Helpers stand first: what it is for a
command to write STATE and nothing else, the lifecycle sets of rule R108 written out, and the error a command
word ends with.
-/

namespace Sys2Proof.Claims

open Sys2Proof.Machine

/-- The command completes; of the whole state only STATE[0..nb-1] and LAST_ERR change, and the new STATE
satisfies `post`. -/
def WritesState (i : Instr) (s : State) (post : Block → Prop) : Prop :=
  ∃ v : Block, exec i s = .next { s with state := v, lastErr := .ok } ∧
    (∀ k, s.cols ≤ k → Block.word v k = Block.word s.state k) ∧ post v

/-- The command ends with error e: LAST_ERR and ERR_SEEN change and nothing else (R344). -/
def Fails (i : Instr) (s : State) (e : ErrorCode) : Prop :=
  exec i s = .next { s with lastErr := e, errSeen := true }

/-- The "lifecycle required" column of R108, written out. -/
def lifecycleAllows (i : Instr) (lc : Lifecycle) : Prop :=
  match i with
  | .init _ _ | .teardown | .gfMul _ _ | .sbox _ _ | .invSbox _ _ => True
  | .encipher | .decipher | .addRk _ | .subRk _ | .xorRk _ => lc = .keyExpanded
  | .keyExpand | .loadState | .subBytes | .invSubBytes | .shiftRows | .invShiftRows
  | .mixColumns | .invMixColumns | .encRound | .decRound | .addDin | .xorDin =>
    lc = .created ∨ lc = .keyExpanded

/-- The five pairs of sizes in bits of R6. -/
def LegalPair (blk keyb : Nat) : Prop :=
  (blk = 128 ∧ keyb = 128) ∨ (blk = 128 ∧ keyb = 256) ∨ (blk = 256 ∧ keyb = 256) ∨
    (blk = 256 ∧ keyb = 512) ∨ (blk = 512 ∧ keyb = 512)

/-- The check of an operand's value fails with error e (R341). -/
def OperandError (i : Instr) (s : State) (e : ErrorCode) : Prop :=
  match i with
  | .init blk keyb => ¬ LegalPair blk keyb ∧ e = .unsupportedConfiguration
  | .addRk j | .subRk j | .xorRk j => s.nr.toNat < j ∧ e = .range
  | _ => False

/-- `e` is the first error that applies to command word c, in the order of R346, or OK if none does. -/
def FirstError (c : Word) (s : State) (e : ErrorCode) : Prop :=
  match decode c with
  | .error _ => e = .illegalCommand
  | .ok i =>
    (¬ lifecycleAllows i s.lc ∧ e = .invalidState) ∨
    (lifecycleAllows i s.lc ∧ OperandError i s e) ∨
    (lifecycleAllows i s.lc ∧ (∀ e', ¬ OperandError i s e') ∧ e = .ok)

/-- The match mask of each row of the opcode table, by opcode value (R102 to R106). -/
def matchMasks : List (Nat × Word) :=
  [(0x01, 0x00000000FFFFFFFF), (0x02, 0xFFFFFFFFFFFFFFFF), (0x03, 0xFFFFFFFFFFFFFFFF),
   (0x04, 0xFFFFFFFFFFFFFFFF), (0x05, 0xFFFFFFFFFFFFFFFF), (0x10, 0xFFFFFFFFFFFFFFFF),
   (0x11, 0xFFFFFFFFFFFFFFFF), (0x12, 0xFFFFFFFFFFFFFFFF), (0x13, 0xFFFFFFFFFFFFFFFF),
   (0x14, 0xFFFFFFFFFFFFFFFF), (0x15, 0xFFFFFFFFFFFFFFFF), (0x16, 0xFFFFFFFFFFFFFFFF)] ++
  [(0x17, 0xFFFFFFFFFFFFFFFF), (0x18, 0xFFFFFFFFFFFFFFFF), (0x20, 0xFFFFFFFFFFFF00FF),
   (0x21, 0xFFFFFFFFFFFF00FF), (0x22, 0xFFFFFFFFFFFF00FF), (0x23, 0xFFFFFFFFFFFFFFFF),
   (0x24, 0xFFFFFFFFFFFFFFFF), (0x30, 0xFFFFFFFF0000FFFF), (0x31, 0xFFFFFFFFFF00FCFF),
   (0x32, 0xFFFFFFFFFF00FCFF)]

/-- The polynomial over GF(2) whose coefficients are the bits of a byte (R202). -/
noncomputable def bytePoly (a : Byte) : Polynomial (ZMod 2) :=
  ∑ k ∈ Finset.range 8, if a.getLsbD k then Polynomial.X ^ k else 0

/-- The n-word blocks: zero above their words. -/
def blocks (n : Nat) : Set Block := fun b => ∀ i, n ≤ i → Block.word b i = 0

/-- The first word of the key window of even key RK[2m] (R292): under DOC the windows are the whole key, or
its halves in the order low, high, high, low; under REF1W they start one word later in every iteration. -/
def windowStart (ks : KsRotation) (nb nk m : Nat) : Nat :=
  match ks with
  | .doc => if nk = nb then 0 else if m % 4 = 0 ∨ m % 4 = 3 then 0 else nb
  | .ref1w => if nk = nb then m else m / 2 + (m % 2) * nb

/-- ENCIPHER by component commands (L2.9). -/
def encipherParts (nr : Nat) : List Instr :=
  [.loadState, .addRk 0] ++ (List.range (nr - 1)).flatMap (fun r => [.encRound, .xorRk (r + 1)]) ++
    [.encRound, .addRk nr]

/-- DECIPHER by component commands (R322). -/
def decipherParts (nr : Nat) : List Instr :=
  [.loadState, .subRk nr] ++
    (List.range (nr - 1)).flatMap (fun r => [.decRound, .xorRk (nr - 1 - r)]) ++ [.decRound, .subRk 0]

/-- What a host that waits for BUSY = 0 after each CMD write does: a command with its poll, a read, a write
of a register other than CMD, or nothing for a cycle. -/
inductive PoliteOp where
  | command (c : Word)
  | read (n : Fin 32)
  | write (n : Fin 32) (h : n ≠ 0) (v : Word)
  | wait

/-- The host accesses of such a host. -/
def politeEvents : List PoliteOp → List HostEvent
  | [] => []
  | .command c :: ops => .write 0 8 c :: .poll :: politeEvents ops
  | .read n :: ops => .read (8 * n.val) 8 :: politeEvents ops
  | .write n _ v :: ops => .write (8 * n.val) 8 v :: politeEvents ops
  | .wait :: ops => .idle :: politeEvents ops

/-- The same host on the block with latency 0 for every command: the atomic model (R30). -/
def atomic (s : State) : State := { s with params := { s.params with lat := [] } }

end Sys2Proof.Claims

open Sys2Proof Sys2Proof.Machine Sys2Proof.Claims

/-! ## Encoding and the step -/

/-- R115: the table of encodings, both ways. The spec
derives it from R101 to R108. -/
def Obligations.SpecExampleWordsDecode : Prop :=
  decode 0x0080008000000001 = .ok (.init 128 128) ∧ encode (.init 128 128) = 0x0080008000000001 ∧
  decode 0x0100008000000001 = .ok (.init 128 256) ∧ encode (.init 128 256) = 0x0100008000000001 ∧
  decode 0x0100010000000001 = .ok (.init 256 256) ∧ encode (.init 256 256) = 0x0100010000000001 ∧
  decode 0x0200010000000001 = .ok (.init 256 512) ∧ encode (.init 256 512) = 0x0200010000000001 ∧
  decode 0x0200020000000001 = .ok (.init 512 512) ∧ encode (.init 512 512) = 0x0200020000000001 ∧
  decode 0x008000C000000001 = .ok (.init 192 128) ∧ encode (.init 192 128) = 0x008000C000000001 ∧
  (∀ s, Fails (.init 192 128) s .unsupportedConfiguration) ∧
  decode 0x0000000000000003 = .ok .keyExpand ∧ encode .keyExpand = 0x0000000000000003 ∧
  decode 0x0000000000000004 = .ok .encipher ∧ encode .encipher = 0x0000000000000004 ∧
  decode 0x0000000000000A20 = .ok (.addRk 10) ∧ encode (.addRk 10) = 0x0000000000000A20 ∧
  decode 0x0000000083570030 = .ok (.gfMul 0x57 0x83) ∧ encode (.gfMul 0x57 0x83) = 0x0000000083570030 ∧
  decode 0x00000000001F0231 = .ok (.sbox 2 0x1F) ∧ encode (.sbox 2 0x1F) = 0x00000000001F0231 ∧
  decode 0x0000000000000111 = .error .reservedBit ∧
  (∀ s, runCommand 0x0000000000000111 s = .next { s with lastErr := .illegalCommand, errSeen := true })

/-- R101 to R107, R111: every well-formed command decodes from its own encoding, with every operand. -/
def Obligations.EncodedCommandDecodesBack : Prop :=
  ∀ i : Instr, i.wf = true → decode (encode i) = .ok i

/-- R101, R107: a word that decodes is the encoding of the well-formed command it decodes to, so no two
words mean one command and no bit of a word is ignored. -/
def Obligations.DecodedWordIsItsEncoding : Prop :=
  ∀ (c : Word) (i : Instr), decode c = .ok i → i.wf = true ∧ encode i = c

/-- R109: exactly the listed opcode values are reserved, 0x00 among them, and a command with one raises
ILLEGAL_COMMAND. -/
def Obligations.ReservedOpcodesRaiseIllegal : Prop :=
  ∀ (c : Word),
    (decode c = .error .reservedOpcode ↔
      c.toNat % 256 = 0x00 ∨ (0x06 ≤ c.toNat % 256 ∧ c.toNat % 256 ≤ 0x0F) ∨
        (0x19 ≤ c.toNat % 256 ∧ c.toNat % 256 ≤ 0x1F) ∨ (0x25 ≤ c.toNat % 256 ∧ c.toNat % 256 ≤ 0x2F) ∨
        0x33 ≤ c.toNat % 256) ∧
    (decode c = .error .reservedOpcode → ∀ s : State,
      runCommand c s = .next { s with lastErr := .illegalCommand, errSeen := true })

/-- R107: of the words with an opcode of the map, exactly those that match their row under its mask decode;
every other one raises ILLEGAL_COMMAND, which changes no state except STATUS. -/
def Obligations.ReservedBitsRaiseIllegal : Prop :=
  ∀ (c : Word) (row : Nat × Word), row ∈ matchMasks → c.toNat % 256 = row.1 →
    (c &&& row.2 = BitVec.ofNat 64 row.1 → ∃ i, decode c = .ok i ∧ i.op.code = row.1) ∧
    (c &&& row.2 ≠ BitVec.ofNat 64 row.1 → decode c = .error .reservedBit ∧ ∀ s : State,
      runCommand c s = .next { s with lastErr := .illegalCommand, errSeen := true })

/-- R30, R42, R384: a CMD write while no command runs starts the command of the word; with latency 0 the
step is that command's, else the command runs for its latency and the step in its last cycle is (one step a
cycle, and the effects in the last one: the model's choice, log entry 6). With it, what `withFetchWord` places
is what the next step runs (the model's choice, log entry 9). -/
def Obligations.StepRunsTheCommandWord : Prop :=
  (∀ (s : State) (c : Word) (rest : List HostEvent) (i : Instr),
    s.running = none → s.pending = .write 0 8 c :: rest → decode c = .ok i →
      (s.latencyOf c = 0 → step s = exec i { s with pending := rest }) ∧
      (s.latencyOf c ≠ 0 →
        step s = .next { s with pending := rest, running := some ⟨c, s.latencyOf c⟩ })) ∧
  (∀ (s : State) (c : Word) (rest : List HostEvent) (i : Instr),
    s.running = some ⟨c, 1⟩ → s.pending = .idle :: rest → decode c = .ok i →
      step s = exec i { s with pending := rest, running := none }) ∧
  (∀ (s : State) (nbits w : Nat) (i : Instr), decodeTableWord nbits w = some i →
    step (s.withFetchWord nbits w) =
      exec i { s with params := { s.params with lat := [] }, running := none })

/-! ## Lifecycle and configuration -/

/-- R142, R143, R144: INIT of one of the five pairs makes a fresh context with zero buffers; INIT of any
other pair changes only STATUS. -/
def Obligations.InitChecksConfiguration : Prop :=
  ∀ (s : State) (blk keyb : Nat),
    (∀ row ∈ [(128, 128, 2, 2, s.params.nrTable.b128k128), (128, 256, 2, 4, s.params.nrTable.b128k256),
        (256, 256, 4, 4, s.params.nrTable.b256k256), (256, 512, 4, 8, s.params.nrTable.b256k512),
        (512, 512, 8, 8, s.params.nrTable.b512k512)],
      blk = row.1 → keyb = row.2.1 →
        exec (.init blk keyb) s = .next
          { s with
            lc := .created, nb := BitVec.ofNat 8 row.2.2.1, nk := BitVec.ofNat 8 row.2.2.2.1,
            nr := BitVec.ofNat 8 row.2.2.2.2.toNat, state := zeroBlock, rk := zeroRk, kt := zeroBlock,
            tmv := zeroBlock, ktRound := zeroBlock, initialData := zeroBlock, k0 := zeroBlock,
            k1 := zeroBlock, lastErr := .ok }) ∧
    (¬ LegalPair blk keyb → Fails (.init blk keyb) s .unsupportedConfiguration)

/-- R145: TEARDOWN zeroes the context in every lifecycle state and keeps DIN, KEY and SOUT; in NONE nothing
but LAST_ERR changes. -/
def Obligations.TeardownReleasesContext : Prop :=
  (∀ s : State, exec .teardown s = .next
    { s with
      lc := .none, nb := 0, nk := 0, nr := 0, state := zeroBlock, rk := zeroRk, kt := zeroBlock,
      tmv := zeroBlock, ktRound := zeroBlock, initialData := zeroBlock, k0 := zeroBlock, k1 := zeroBlock,
      lastErr := .ok }) ∧
  (∀ s : State, s.Inv → s.lc = .none → exec .teardown s = .next { s with lastErr := .ok })

/-- R146: the lifecycle transitions of every command that completes without an error, and what alone leaves
CREATED for NONE and KEY_EXPANDED for CREATED. -/
def Obligations.LifecycleTransitions : Prop :=
  ∀ (i : Instr) (s t : State), exec i s = .next t →
    (t.lastErr = .ok →
      match i with
      | .init _ _ => t.lc = .created
      | .teardown => t.lc = .none
      | .keyExpand => s.lc ≠ .none ∧ t.lc = .keyExpanded
      | .gfMul _ _ | .sbox _ _ | .invSbox _ _ => t.lc = s.lc
      | _ => s.lc ≠ .none ∧ t.lc = s.lc) ∧
    (s.lc = .created → t.lc = .none → i = .teardown) ∧
    (s.lc = .keyExpanded → t.lc = .created → ∃ blk keyb, i = .init blk keyb)

/-- R44: the fields of CONFIG, which reads all zero in NONE and ignores writes. -/
def Obligations.ConfigRegisterFields : Prop :=
  (∀ s : State, s.lc = .none → s.readReg 2 = 0) ∧
  (∀ s : State, s.lc ≠ .none →
    field (s.readReg 2) 7 0 = s.nb.toNat ∧ field (s.readReg 2) 15 8 = s.nk.toNat ∧
    field (s.readReg 2) 23 16 = s.nr.toNat ∧ field (s.readReg 2) 31 24 = 0 ∧
    field (s.readReg 2) 47 32 = 64 * s.nb.toNat ∧ field (s.readReg 2) 63 48 = 64 * s.nk.toNat) ∧
  (∀ (s : State) (v : Word), s.running = none → hostWrite 2 v s = .next s)

/-- R43, R32, R341: the fields of STATUS, its reserved bits 0. -/
def Obligations.StatusRegisterFields : Prop :=
  ∀ s : State,
    field s.statusWord 0 0 = (if s.running = none then 0 else 1) ∧
    field s.statusWord 1 1 = (if s.errSeen then 1 else 0) ∧
    field s.statusWord 3 2 =
      (match s.lc with | .none => 0 | .created => 1 | .keyExpanded => 2) ∧
    field s.statusWord 4 4 = (if s.protoErr then 1 else 0) ∧
    field s.statusWord 7 5 = 0 ∧
    field s.statusWord 15 8 =
      (match s.lastErr with
        | .ok => 0 | .unsupportedConfiguration => 1 | .invalidState => 2 | .illegalCommand => 3
        | .range => 4 | .allocationFailure => 5) ∧
    field s.statusWord 63 16 = 0

/-! ## Substitution, permutation, diffusion -/

/-- R162, R163 with R164, R165: SUB_BYTES and INV_SUB_BYTES replace byte j of every word through table
j mod 4, each byte on its own, and write nothing else. -/
def Obligations.SubstitutionCommands : Prop :=
  ∀ s : State, s.lc ≠ .none → s.Configured →
    WritesState .subBytes s (fun v => ∀ i < s.cols, ∀ j < 8,
      byteOf (Block.word v i) j = s.params.sboxAt (j % 4) (byteOf (Block.word s.state i) j)) ∧
    WritesState .invSubBytes s (fun v => ∀ i < s.cols, ∀ j < 8,
      byteOf (Block.word v i) j = s.params.invSboxAt (j % 4) (byteOf (Block.word s.state i) j))

/-- R166, R167: SBOX and INV_SBOX write the table entry to SOUT and nothing else, in every lifecycle state. -/
def Obligations.TableLookupCommands : Prop :=
  ∀ (s : State) (t x : Nat), t < 4 → x < 256 →
    (∃ ht : t < 4, exec (.sbox t x) s = .next
      { s with sout := ((s.params.sbox[t]'ht).toList.getD x 0).setWidth 64, lastErr := .ok }) ∧
    (∃ ht : t < 4, exec (.invSbox t x) s = .next
      { s with sout := ((s.params.invSbox[t]'ht).toList.getD x 0).setWidth 64, lastErr := .ok })

/-- Under the contract of R8 the two substitutions undo each other in both orders: the inverse law, which the
spec derives from R8, R162 and R163. -/
def Obligations.SubstitutionInverseLaw : Prop :=
  ∀ p : Params, p.SboxOk →
    (∀ t < 4, ∀ x : Byte, p.invSboxAt t (p.sboxAt t x) = x) ∧
    (∀ (nb : Nat) (S : Block), invSubBytes p nb (subBytes p nb S) = window nb 0 S) ∧
    (∀ (nb : Nat) (S : Block), subBytes p nb (invSubBytes p nb S) = window nb 0 S)

/-- R182, R183 with R181, R184, R185: the byte in row r, column c moves to column (c + r·nb/8) mod nb under
SHIFT_ROWS, and the inverse map under INV_SHIFT_ROWS; nothing else is written. -/
def Obligations.ShiftRowsCommands : Prop :=
  ∀ s : State, s.lc ≠ .none → s.Configured →
    WritesState .shiftRows s (fun v => ∀ r < 8, ∀ c < s.cols,
      byteOf (Block.word v ((c + r * s.cols / 8) % s.cols)) r = byteOf (Block.word s.state c) r) ∧
    WritesState .invShiftRows s (fun v => ∀ r < 8, ∀ c < s.cols,
      byteOf (Block.word v c) r = byteOf (Block.word s.state ((c + r * s.cols / 8) % s.cols)) r)

/-- The two permutations undo each other in both orders, for each nb: the inverse law, which the spec derives
from R182 and R183. -/
def Obligations.PermutationInverseLaw : Prop :=
  ∀ nb ∈ [2, 4, 8], ∀ S : Block,
    invShiftRows nb (shiftRows nb S) = window nb 0 S ∧ shiftRows nb (invShiftRows nb S) = window nb 0 S

/-- R203: GF_MUL writes the product to SOUT and nothing else, in every lifecycle state; with the rule's
corner values. -/
def Obligations.GfMulCommand : Prop :=
  (∀ (s : State) (a b : Byte), exec (.gfMul a.toNat b.toNat) s = .next
    { s with sout := (gmul a b).setWidth 64, lastErr := .ok }) ∧
  gmul 0x80 0x02 = 0x1D ∧ gmul 0xFF 0xFF = 0xE2 ∧ gmul 0x57 0x83 = 0x31

/-- R202: gmul(a, b) is the coefficient vector of the product of a and b modulo z^8+z^4+z^3+z^2+1.
The spec derives it from R201. -/
def Obligations.GmulIsPolynomialProduct : Prop :=
  ∀ a b : Byte,
    (Polynomial.X ^ 8 + Polynomial.X ^ 4 + Polynomial.X ^ 3 + Polynomial.X ^ 2 + 1 : Polynomial (ZMod 2)) ∣
      bytePoly (gmul a b) - bytePoly a * bytePoly b

/-- R202: the laws of the product: commutative, 1 and 0, associative, distributive over exclusive-or, one
inverse for every nonzero byte, and 0x02 of order 255. The spec derives them from R201. -/
def Obligations.GmulFieldLaws : Prop :=
  (∀ a b : Byte, gmul a b = gmul b a) ∧ (∀ a : Byte, gmul a 1 = a) ∧ (∀ a : Byte, gmul a 0 = 0) ∧
  (∀ a b c : Byte, gmul (gmul a b) c = gmul a (gmul b c)) ∧
  (∀ a b c : Byte, gmul a (b ^^^ c) = gmul a b ^^^ gmul a c) ∧
  (∀ a : Byte, a ≠ 0 → ∃! a' : Byte, gmul a a' = 1) ∧ gmul 0x02 0x8E = 1 ∧
  (∀ n : Nat, (gmul 0x02)^[n] 1 = 1 ↔ 255 ∣ n)

/-- R205, R207, R208 with R209, R210: every column is replaced by the matrix times the column, row r against
the column's bytes; nothing else is written. -/
def Obligations.MixColumnsCommands : Prop :=
  ∀ s : State, s.lc ≠ .none → s.Configured →
    WritesState .mixColumns s (fun v => ∀ c < s.cols, ∀ r < 8,
      byteOf (Block.word v c) r =
        xorBytes fun k => gmul (s.params.mds.entry r k) (byteOf (Block.word s.state c) k)) ∧
    WritesState .invMixColumns s (fun v => ∀ c < s.cols, ∀ r < 8,
      byteOf (Block.word v c) r =
        xorBytes fun k => gmul (s.params.mdsInv.entry r k) (byteOf (Block.word s.state c) k))

/-- R209: the column product is linear over exclusive-or and keeps the zero column, and a column whose only
byte is byte k = 1 becomes column k of the matrix. -/
def Obligations.ColumnProductIsLinear : Prop :=
  ∀ M : ByteMatrix, (∀ u w : Word, colmul M (u ^^^ w) = colmul M u ^^^ colmul M w) ∧ colmul M 0 = 0 ∧
    ∀ k < 8, ∀ r < 8, byteOf (colmul M ((1 : Word) <<< (8 * k))) r = M.entry r k

/-- R211: InvMixColumns undoes MixColumns exactly when MDS_INV · MDS = I, then in the other order too, and
the default matrices meet the condition. The spec derives it from R205, R207 and R208; the default
values are the general knowledge of log entry 3. -/
def Obligations.DiffusionInverseLaw : Prop :=
  (∀ p : Params,
    (∀ (nb : Nat) (S : Block), invMixColumns p nb (mixColumns p nb S) = window nb 0 S) ↔ p.MdsOk) ∧
  (∀ p : Params, p.MdsOk → ∀ (nb : Nat) (S : Block),
    mixColumns p nb (invMixColumns p nb S) = window nb 0 S) ∧
  Params.default.MdsOk

/-- R206: the default matrices are the circulants of m and mi, and inverse to each other. Their values are
general knowledge, not the source's (log entry 3). -/
def Obligations.DefaultMatricesAreCirculant : Prop :=
  (∀ r < 8, ∀ k < 8,
    Params.defaultMds.entry r k =
      [0x01, 0x01, 0x05, 0x01, 0x08, 0x06, 0x07, 0x04].getD ((k + 8 - r) % 8) 0 ∧
    Params.defaultMdsInv.entry r k =
      [0xAD, 0x95, 0x76, 0xA8, 0x2F, 0x49, 0xD7, 0xCA].getD ((k + 8 - r) % 8) 0) ∧
  (∀ r < 8, ∀ c < 8,
    xorBytes (fun k => gmul (Params.defaultMds.entry r k) (Params.defaultMdsInv.entry k c)) =
      if r = c then 1 else 0) ∧
  (∀ r < 8, ∀ c < 8,
    xorBytes (fun k => gmul (Params.defaultMdsInv.entry r k) (Params.defaultMds.entry k c)) =
      if r = c then 1 else 0)

/-! ## Mixing and rounds -/

/-- R231 with R234, R235, R236: with a key schedule and j ≤ NR, ADD_RK, SUB_RK and XOR_RK combine RK[j] into
STATE word by word, modulo 2^64 or by exclusive-or, and write nothing else. -/
def Obligations.RoundKeyMixCommands : Prop :=
  ∀ (s : State) (j : Nat), s.lc = .keyExpanded → s.Configured → j ≤ s.nr.toNat →
    WritesState (.addRk j) s (fun v => ∀ i < s.cols, (Block.word v i).toNat =
      ((Block.word s.state i).toNat + (Block.word (RkFile.block s.rk j) i).toNat) % 2 ^ 64) ∧
    WritesState (.subRk j) s (fun v => ∀ i < s.cols, (Block.word v i).toNat =
      ((Block.word s.state i).toNat + 2 ^ 64 - (Block.word (RkFile.block s.rk j) i).toNat) % 2 ^ 64) ∧
    WritesState (.xorRk j) s (fun v => ∀ i < s.cols,
      Block.word v i = Block.word s.state i ^^^ Block.word (RkFile.block s.rk j) i)

/-- R104, R234: with a key schedule, an index greater than NR is a range error, which changes only STATUS. -/
def Obligations.RoundKeyIndexPastNrFails : Prop :=
  ∀ (s : State) (j : Nat), s.lc = .keyExpanded → s.nr.toNat < j →
    Fails (.addRk j) s .range ∧ Fails (.subRk j) s .range ∧ Fails (.xorRk j) s .range

/-- R233, R237, R238: LOAD_STATE copies DIN[0..nb-1] into STATE, ADD_DIN and XOR_DIN mix it in; nothing else
is written. -/
def Obligations.DinCommands : Prop :=
  ∀ s : State, s.lc ≠ .none → s.Configured →
    WritesState .loadState s (fun v => ∀ i < s.cols, Block.word v i = Block.word s.din i) ∧
    WritesState .addDin s (fun v => ∀ i < s.cols, (Block.word v i).toNat =
      ((Block.word s.state i).toNat + (Block.word s.din i).toNat) % 2 ^ 64) ∧
    WritesState .xorDin s (fun v => ∀ i < s.cols,
      Block.word v i = Block.word s.state i ^^^ Block.word s.din i)

/-- R239: SubKey and AddKey undo each other, XorKey undoes itself, and AddKey and XorKey do not commute.
The spec derives them from R231. -/
def Obligations.MixingLaws : Prop :=
  (∀ (nb : Nat) (S K : Block),
    subKey nb (addKey nb S K) K = window nb 0 S ∧ addKey nb (subKey nb S K) K = window nb 0 S ∧
    xorKey nb (xorKey nb S K) K = window nb 0 S) ∧
  (∀ S : Block, Block.word S 0 = 1 →
    Block.word (addKey 1 (xorKey 1 S S) S) 0 = 1 ∧ Block.word (xorKey 1 (addKey 1 S S) S) 0 = 3)

/-- R261, R262 with R263, R264: ENC_ROUND is SUB_BYTES, SHIFT_ROWS, MIX_COLUMNS and DEC_ROUND is
INV_MIX_COLUMNS, INV_SHIFT_ROWS, INV_SUB_BYTES, in the whole state they leave; nothing but STATE and
LAST_ERR changes. -/
def Obligations.RoundCommandsAreTheirStages : Prop :=
  ∀ s : State, s.lc ≠ .none →
    WritesState .encRound s (fun v =>
      execAll [.subBytes, .shiftRows, .mixColumns] s = .next { s with state := v, lastErr := .ok }) ∧
    WritesState .decRound s (fun v =>
      execAll [.invMixColumns, .invShiftRows, .invSubBytes] s = .next { s with state := v, lastErr := .ok })

/-- R165, R186, R211, R265: under R8 and R9, each of these commands after its inverse, in either order,
leaves the whole state as it was but for LAST_ERR. The spec derives these laws from R162, R163, R182, R183, R205. -/
def Obligations.InverseCommandPairs : Prop :=
  ∀ s : State, s.lc ≠ .none → s.Configured → s.params.Ok →
    ∀ pair ∈ [[Instr.subBytes, .invSubBytes], [.invSubBytes, .subBytes], [.shiftRows, .invShiftRows],
        [.invShiftRows, .shiftRows], [.mixColumns, .invMixColumns], [.invMixColumns, .mixColumns],
        [.encRound, .decRound], [.decRound, .encRound]],
      execAll pair s = .next { s with lastErr := .ok }

/-! ## Key schedule and drivers -/

/-- R281, R290: KEY_EXPAND completes whenever there is a context; it writes RK[0..nr][0..nb-1] from the key
alone, STATE[0..nb-1], the scratch, LC and LAST_ERR, and nothing else. -/
def Obligations.KeyExpandCommand : Prop :=
  ∀ s : State, s.lc ≠ .none → s.Configured →
    ∃ t : State, exec .keyExpand s = .next t ∧
      t = { s with
        state := t.state, rk := t.rk, kt := t.kt, tmv := t.tmv, ktRound := t.ktRound,
        initialData := t.initialData, k0 := t.k0, k1 := t.k1, lc := .keyExpanded, lastErr := .ok } ∧
      (∀ i, s.cols ≤ i → Block.word t.state i = Block.word s.state i) ∧
      (∀ j i, s.nr.toNat < j ∨ s.cols ≤ i →
        Block.word (RkFile.block t.rk j) i = Block.word (RkFile.block s.rk j) i) ∧
      (∀ j ≤ s.nr.toNat, ∀ i < s.cols,
        Block.word (RkFile.block t.rk j) i =
          Block.word (RkFile.block
            (keySchedule s.params s.cols s.nk.toNat s.nr.toNat s.keyIn zeroRk).rk j) i)

/-- R291: the schedule is a function of KEY[0..nk-1], (NB, NK, NR) and the parameters SBOX, MDS and
KS_ROTATION alone. -/
def Obligations.KeyScheduleDependsOnKeyAlone : Prop :=
  ∀ s s' t t' : State, s.lc ≠ .none → s'.lc ≠ .none → s.Configured →
    s'.nb = s.nb → s'.nk = s.nk → s'.nr = s.nr →
    s'.params.sbox = s.params.sbox → s'.params.mds = s.params.mds →
    s'.params.ksRotation = s.params.ksRotation →
    (∀ i < s.nk.toNat, Block.word s'.key i = Block.word s.key i) →
    exec .keyExpand s = .next t → exec .keyExpand s' = .next t' →
      ∀ j ≤ s.nr.toNat, ∀ i < s.cols,
        Block.word (RkFile.block t'.rk j) i = Block.word (RkFile.block t.rk j) i

/-- R284, R285, R286, R292: after KEY_EXPAND, RK[2m] is the even-key core of the key's window of R292, under
either rotation, with the key Kt +64 (tmv << m). The spec derives the windows and the shift from
R284 and R285. -/
def Obligations.EvenRoundKeysUseTheirWindows : Prop :=
  ∀ s t : State, s.lc ≠ .none → s.Configured → exec .keyExpand s = .next t →
    ∀ m, 2 * m ≤ s.nr.toNat → ∀ i < s.cols,
      Block.word (RkFile.block t.rk (2 * m)) i =
        Block.word
          (evenKey s.params s.cols
            (Block.ofWords s.cols fun k => Block.word s.key
              ((windowStart s.params.ksRotation s.cols s.nk.toNat m + k) % s.nk.toNat))
            (addKey s.cols (ktDerive s.params s.cols s.nk.toNat s.keyIn)
              (Block.ofWords s.cols fun _ => (0x0001000100010001 : Word) <<< m))) i

/-- R282: Kt of a key is what the component commands of stage 1 leave in STATE, run from the seed
nb + nk + 1 with the two key windows in DIN. That the scratch register Kt still holds it after the command is
the model's choice (log entry 13). -/
def Obligations.KtIsStageOneByCommands : Prop :=
  ∀ s : State, s.lc ≠ .none → s.Configured →
    let din0 : Block := Block.ofWords s.cols fun i => Block.word s.key i
    let din1 : Block := Block.ofWords s.cols fun i =>
      Block.word s.key (if s.nk = s.nb then i else s.cols + i)
    ∃ a b c t : State,
      execAll [.addDin, .encRound]
        { s with
          din := din0
          state := Block.ofWords s.cols fun i =>
            if i = 0 then BitVec.ofNat 64 (s.nb.toNat + s.nk.toNat + 1) else 0 } = .next a ∧
      execAll [.xorDin, .encRound] { a with din := din1 } = .next b ∧
      execAll [.addDin, .encRound] { b with din := din0 } = .next c ∧
      exec .keyExpand s = .next t ∧ ∀ i < s.cols, Block.word t.kt i = Block.word c.state i

/-- R287, R288: after KEY_EXPAND, every odd key is the even key before it with its byte buffer rotated
toward index 0 by 2·nb + 3 bytes. -/
def Obligations.OddRoundKeysAreRotations : Prop :=
  ∀ s t : State, s.lc ≠ .none → s.Configured → exec .keyExpand s = .next t →
    ∀ i, i % 2 = 1 → i < s.nr.toNat → ∀ k < 8 * s.cols,
      Block.byte (RkFile.block t.rk i) k =
        Block.byte (RkFile.block t.rk (i - 1)) ((k + (2 * s.cols + 3)) % (8 * s.cols))

/-- R289: after KEY_EXPAND, STATE equals RK[NR], and DOUT reads it. The spec derives it from R284 and R287. -/
def Obligations.StateAfterKeyExpandIsLastKey : Prop :=
  ∀ s t : State, s.lc ≠ .none → s.Configured → exec .keyExpand s = .next t →
    ∀ i < s.cols, Block.word t.state i = Block.word (RkFile.block t.rk t.nr.toNat) i ∧
      t.readReg (24 + i) = Block.word (RkFile.block t.rk t.nr.toNat) i

/-- R36: only KEY_EXPAND writes RK with key material; INIT, TEARDOWN and reset set it to zero; no other
command and no host write changes it. -/
def Obligations.RoundKeysWrittenOnlyByKeyExpand : Prop :=
  (∀ (i : Instr) (s t : State), exec i s = .next t → t.rk ≠ s.rk →
    i = .keyExpand ∨ ((i = .teardown ∨ ∃ blk keyb, i = .init blk keyb) ∧ t.rk = zeroRk)) ∧
  (∀ (i : Instr) (s t : State), exec i s = .next t → t.lastErr = .ok →
    (i = .teardown ∨ ∃ blk keyb, i = .init blk keyb) → t.rk = zeroRk) ∧
  (∀ (s : State) (rest : List HostEvent), s.pending = .reset :: rest →
    ∃ t, step s = .next t ∧ t.rk = zeroRk) ∧
  (∀ s t : State, step s = .next t → t.rk ≠ s.rk → t.rk = zeroRk ∨
    ∃ c, decode c = .ok .keyExpand ∧
      ((∃ rest, s.pending = .write 0 8 c :: rest) ∨ ∃ left, s.running = some ⟨c, left⟩)) ∧
  (∀ (n : Nat) (v : Word) (s : State), (s.writeReg n v).rk = s.rk)

/-- R321, R322: with a key schedule, ENCIPHER and DECIPHER write STATE[0..nb-1] and nothing else, with the
whole state that their component commands leave one after another. -/
def Obligations.DriversAreTheirComponents : Prop :=
  ∀ s : State, s.lc = .keyExpanded → s.Configured →
    WritesState .encipher s (fun v =>
      execAll (encipherParts s.nr.toNat) s = .next { s with state := v, lastErr := .ok }) ∧
    WritesState .decipher s (fun v =>
      execAll (decipherParts s.nr.toNat) s = .next { s with state := v, lastErr := .ok })

/-- R323: if ENCIPHER on DIN = P leaves C, then DECIPHER on DIN = C leaves P, in every later state that still
has the schedule (so whatever runs between them, if no KEY_EXPAND, INIT or TEARDOWN does); for every schedule
and every parameters that meet R8 and R9.
The spec derives it from R321, R322, R239 and R265. -/
def Obligations.DecipherUndoesEncipher : Prop :=
  ∀ s : State, s.lc = .keyExpanded → s.Configured → s.params.Ok →
    ∃ t : State, exec .encipher s = .next t ∧ t.lastErr = .ok ∧
      ∀ u : State, u.lc = .keyExpanded → u.nb = s.nb → u.nr = s.nr → u.rk = s.rk → u.params = s.params →
        (∀ i < s.cols, Block.word u.din i = Block.word t.state i) →
          ∃ v : State, exec .decipher u = .next v ∧ v.lastErr = .ok ∧
            ∀ i < s.cols, Block.word v.state i = Block.word s.din i

/-- R324: E_K and D_K are inverse to each other on nb-word blocks, and E_K permutes them. The spec
derives it from R321 and R322. -/
def Obligations.EncipherPermutesBlocks : Prop :=
  ∀ p : Params, p.Ok → ∀ nb ∈ [2, 4, 8], ∀ (nr : Nat) (rk : RkFile),
    (∀ P ∈ blocks nb, decipherBlock p nb nr rk (encipherBlock p nb nr rk P) = P) ∧
    (∀ C ∈ blocks nb, encipherBlock p nb nr rk (decipherBlock p nb nr rk C) = C) ∧
    Set.BijOn (encipherBlock p nb nr rk) (blocks nb) (blocks nb)

/-! ## Errors -/

/-- R343: the lifecycle check passes exactly when LC is in the set R108 gives; failing it is INVALID_STATE
and changes only STATUS. -/
def Obligations.LifecycleCheck : Prop :=
  ∀ (i : Instr) (s : State),
    (¬ lifecycleAllows i s.lc → Fails i s .invalidState) ∧
    (lifecycleAllows i s.lc → ∃ t, exec i s = .next t ∧ t.lastErr ≠ .invalidState)

/-- R344, R345: a command that ends with an error changes LAST_ERR and ERR_SEEN only, and sets ERR_SEEN; one
that ends without leaves ERR_SEEN as it was. -/
def Obligations.ErrorsArePrecise : Prop :=
  ∀ (c : Word) (s : State), ∃ t, runCommand c s = .next t ∧
    (t.lastErr ≠ .ok → t = { s with lastErr := t.lastErr, errSeen := true }) ∧
    (t.lastErr = .ok → t.errSeen = s.errSeen)

/-- R346 with R341, R342, R350: LAST_ERR is the first error that applies, in the order ILLEGAL_COMMAND,
INVALID_STATE, then the operand's; so it is never ALLOCATION_FAILURE. -/
def Obligations.FirstErrorIsReported : Prop :=
  ∀ (c : Word) (s : State), ∃ t, runCommand c s = .next t ∧ FirstError c s t.lastErr ∧
    (∀ e, FirstError c s e → e = t.lastErr) ∧ t.lastErr ≠ .allocationFailure

/-- R348: ERR_SEEN and PROTO_ERR, once set, are cleared by no step but reset; a command runs normally
whatever LAST_ERR holds; and retrying a command that ended with an error changes nothing any more. -/
def Obligations.ErrorsStickAndRepeat : Prop :=
  (∀ s t : State, step s = .next t → (∀ rest, s.pending ≠ .reset :: rest) →
    (s.errSeen = true → t.errSeen = true) ∧ (s.protoErr = true → t.protoErr = true)) ∧
  (∀ (c : Word) (s t : State) (e : ErrorCode), runCommand c s = .next t →
    runCommand c { s with lastErr := e } = .next t) ∧
  (∀ (c : Word) (s t : State), runCommand c s = .next t → t.lastErr ≠ .ok → runCommand c t = .next t)

/-- R45 to R47, R52, R36: what no command changes: the parameters, DIN, KEY, PROTO_ERR, what the host does
and has read; SOUT changes only under GF_MUL, SBOX and INV_SBOX, and its bits 63:8 read 0. -/
def Obligations.WhatNoCommandChanges : Prop :=
  ∀ (i : Instr) (s t : State), exec i s = .next t →
    t.params = s.params ∧ t.din = s.din ∧ t.key = s.key ∧ t.protoErr = s.protoErr ∧
    t.running = s.running ∧ t.pending = s.pending ∧ t.got = s.got ∧ t.freeIdx = s.freeIdx ∧
    (t.sout ≠ s.sout →
      t.sout.toNat < 256 ∧ ((∃ a b, i = .gfMul a b) ∨ (∃ n x, i = .sbox n x) ∨ ∃ n x, i = .invSbox n x))

/-- R52, R39, R380: no step, reset included, changes the parameters and the constant tables. -/
def Obligations.ParametersNeverChange : Prop :=
  ∀ s t : State, step s = .next t → t.params = s.params

/-! ## The host bus -/

/-- R42 to R48: what a read of each register returns while no command runs, without any side effect. -/
def Obligations.HostReadMap : Prop :=
  ∀ (s : State) (n : Nat) (rest : List HostEvent), n < 32 → s.running = none →
    s.pending = .read (8 * n) 8 :: rest →
    ∃ v, step s = .next { s with pending := rest, got := v :: s.got } ∧
      (n = 0 → v = 0) ∧ (n = 1 → v = s.statusWord) ∧ (n = 2 → v = s.configWord) ∧ (n = 3 → v = s.sout) ∧
      (4 ≤ n → n ≤ 7 → v = 0) ∧ (8 ≤ n → n ≤ 15 → v = Block.word s.din (n - 8)) ∧
      (16 ≤ n → n ≤ 23 → v = 0) ∧ (24 ≤ n → v = Block.word s.state (n - 24))

/-- R77: the side effects of host accesses while no command runs: a CMD write starts a command, a DIN or KEY
write stores and does nothing else, a write elsewhere is ignored, and two reads in a row return the same
value and leave the block as it was. -/
def Obligations.HostAccessEffects : Prop :=
  ∀ (s : State) (n : Nat) (v : Word) (rest : List HostEvent), n < 32 → s.running = none →
    (s.pending = .write (8 * n) 8 v :: rest →
      (n = 0 → step s = startCommand v { s with pending := rest }) ∧
      (n ≠ 0 → ∃ d k : Block, step s = .next { s with pending := rest, din := d, key := k } ∧
        (∀ i < 8, Block.word d i = if n = 8 + i then v else Block.word s.din i) ∧
        (∀ i < 8, Block.word k i = if n = 16 + i then v else Block.word s.key i))) ∧
    (s.pending = .read (8 * n) 8 :: .read (8 * n) 8 :: rest →
      ∃ w t, step s = .next t ∧ step t = .next { s with pending := rest, got := w :: w :: s.got })

/-- R49: reserved slots read 0 and ignore writes, read-only registers ignore writes, write-only registers
read 0; no error is raised. -/
def Obligations.ReservedAndOneWayRegisters : Prop :=
  ∀ (s : State) (n : Nat) (rest : List HostEvent), n < 32 → s.running = none →
    ((4 ≤ n ∧ n ≤ 7) ∨ n = 0 ∨ (16 ≤ n ∧ n ≤ 23) → s.pending = .read (8 * n) 8 :: rest →
      step s = .next { s with pending := rest, got := 0 :: s.got }) ∧
    (∀ v, (1 ≤ n ∧ n ≤ 7) ∨ 24 ≤ n → s.pending = .write (8 * n) 8 v :: rest →
      step s = .next { s with pending := rest })

/-- R75: an access of another width, or at an address that is no multiple of 8 or lies above 0xF8, has no
step; every other access has one. -/
def Obligations.OtherAccessesHaveNoStep : Prop :=
  ∀ (s : State) (addr width : Nat) (v : Word) (rest : List HostEvent),
    s.pending = .read addr width :: rest ∨ s.pending = .write addr width v :: rest →
      (¬ (width = 8 ∧ addr % 8 = 0 ∧ addr ≤ 0xF8) → step s = .refused (.badAccess addr width)) ∧
      (width = 8 ∧ addr % 8 = 0 ∧ addr ≤ 0xF8 → ∃ t, step s = .next t)

/-- A write to any register while BUSY, CMD included, is lost and sets PROTO_ERR, and nothing else changes (from
R385). That the same step brings the running command one cycle nearer to its end, or lets its effects happen if
it is in its last cycle, is the model's choice: one step is one cycle (log entry 6). -/
def Obligations.BusyWritesAreLost : Prop :=
  ∀ (s : State) (r : Running) (n : Nat) (v : Word) (rest : List HostEvent), n < 32 →
    s.running = some r → s.pending = .write (8 * n) 8 v :: rest →
      (1 < r.left → step s = .next
        { s with pending := rest, protoErr := true, running := some ⟨r.cmd, r.left - 1⟩ }) ∧
      (r.left ≤ 1 → ∃ t, step s = .next { t with protoErr := true } ∧
        step { s with pending := .idle :: rest } = .next t)

/-- A read of STATUS while BUSY returns its value with BUSY = 1, and the read has no other effect on the block
(from R386). That a read of any other register returns `Config.busyRead` of the counter freeIdx, which advances
by one, is the model's choice of a free value (log entry 7), and that the same step is a cycle of the running
command is its choice too (log entry 6). -/
def Obligations.BusyReads : Prop :=
  ∀ (s : State) (r : Running) (n : Nat) (rest : List HostEvent), n < 32 →
    s.running = some r → s.pending = .read (8 * n) 8 :: rest →
      ∃ t, step { s with pending := .idle :: rest } = .next t ∧
        (n = 1 → field s.statusWord 0 0 = 1 ∧ step s = .next { t with got := s.statusWord :: s.got }) ∧
        (n ≠ 1 → step s = .next
          { t with got := Config.busyRead s.freeIdx :: s.got, freeIdx := s.freeIdx + 1 })

/-- A command with latency n is BUSY for exactly the n steps after its CMD write and then has the effects it would
have had at the write (from R384, R389). That one step is one cycle and that all effects happen in the last of
them is the model's choice (log entry 6). -/
def Obligations.CommandIsBusyForItsLatency : Prop :=
  ∀ (s : State) (c : Word) (rest : List HostEvent), s.running = none → 0 < s.latencyOf c →
    s.pending = .write 0 8 c :: (List.replicate (s.latencyOf c) .idle ++ rest) →
      (∀ k, 1 ≤ k → k ≤ s.latencyOf c →
        ∃ u : State, Sys2Proof.core.run k s = .next u ∧ u.busy = true) ∧
      ∃ t : State, runCommand c { s with pending := rest } = .next t ∧
        Sys2Proof.core.run (s.latencyOf c + 1) s = .next t ∧ t.busy = false

/-- A host that waits for BUSY = 0 after each CMD write sees exactly the results of the atomic model, whatever the
latencies are: its run on the timed block ends (R391) in the state, with every value it read, in which its run
on the block with latency 0 ends. The spec derives it (R387) from R384, R385 and R386. That the run on the block
with latency 0 takes one step for each access is the model's choice (log entry 6), and so is poll as one event
that records only the value that ends it (log entry 12). -/
def Obligations.PollingHostSeesAtomicModel : Prop :=
  ∀ (ops : List PoliteOp) (s : State), s.running = none → s.pending = politeEvents ops →
    ∃ (n : Nat) (t : State), Sys2Proof.core.run n s = .next t ∧ t.Ended ∧
      Sys2Proof.core.run (politeEvents ops).length (atomic s) = .next (atomic t)

/-- R380: reset, from any state and while a command runs, is one step to the values of R51; the parameters
and what is not the block's stay. -/
def Obligations.ResetStep : Prop :=
  ∀ (s : State) (rest : List HostEvent), s.pending = .reset :: rest →
    step s = .next
      { params := s.params, lc := .none, nb := 0, nk := 0, nr := 0, state := zeroBlock, rk := zeroRk,
        kt := zeroBlock, tmv := zeroBlock, ktRound := zeroBlock, initialData := zeroBlock,
        k0 := zeroBlock, k1 := zeroBlock, din := zeroBlock, key := zeroBlock, sout := 0,
        errSeen := false, protoErr := false, lastErr := .ok, running := none,
        pending := rest, got := s.got, freeIdx := s.freeIdx }

/-- R51: after reset every register is 0, LC is NONE, and every host register reads 0. -/
def Obligations.ResetValues : Prop :=
  State.reset.lc = .none ∧ State.reset.nb = 0 ∧ State.reset.nk = 0 ∧ State.reset.nr = 0 ∧
  (∀ i < 8, Block.word State.reset.state i = 0 ∧ Block.word State.reset.kt i = 0 ∧
    Block.word State.reset.tmv i = 0 ∧ Block.word State.reset.ktRound i = 0 ∧
    Block.word State.reset.initialData i = 0 ∧ Block.word State.reset.k0 i = 0 ∧
    Block.word State.reset.k1 i = 0 ∧ Block.word State.reset.din i = 0 ∧
    Block.word State.reset.key i = 0) ∧
  (∀ j < 19, ∀ i < 8, Block.word (RkFile.block State.reset.rk j) i = 0) ∧
  State.reset.sout = 0 ∧ State.reset.running = none ∧ State.reset.errSeen = false ∧
  State.reset.protoErr = false ∧ State.reset.lastErr = .ok ∧ ∀ n < 32, State.reset.readReg n = 0

/-- R38, R47, R36: no host register reads KEY, RK or the key-schedule scratch: two states that differ in
nothing else look alike on every register. -/
def Obligations.KeyMaterialHasNoReadPort : Prop :=
  ∀ (s : State) (key kt tmv ktRound initialData k0 k1 : Block) (rk : RkFile) (n : Nat),
    State.readReg
      { s with
        key := key, kt := kt, tmv := tmv, ktRound := ktRound, initialData := initialData, k0 := k0,
        k1 := k1, rk := rk } n = s.readReg n

/-! ## Invariants -/

/-- R37, R51: the reset state meets the invariant, and its parameters meet R8 and R9. -/
def Obligations.ResetMeetsInvariant : Prop :=
  State.reset.Inv ∧ State.reset.params.Ok

/-- R37 with R34, R35, R45: every step keeps the invariant, from every state that meets it. -/
def Obligations.StepKeepsInvariant : Prop :=
  ∀ s t : State, s.Inv → step s = .next t → t.Inv

/-! ## The assembler -/

/-- R112, R113: a command line assembles exactly if its operands fit their fields, and then to the one CMD
write whose word decodes to that command. -/
def Obligations.AssembledCommandDecodes : Prop :=
  ∀ (nb nk : Nat) (i : Instr),
    (assemble nb nk (.command i) = none ↔ i.wf = false) ∧
    (∀ es, assemble nb nk (.command i) = some es → ∃ c, es = [.write 0 8 c] ∧ decode c = .ok i)

/-- R114: SETKEY, ENC, DEC and LOADS expand to the writes of their words, from KEY[0] or DIN[0] on, then the
command and, but for LOADS, poll; the assembler requires nk or nb words; CMD expands to its raw word. -/
def Obligations.PseudoInstructionsExpand : Prop :=
  ∀ (nb nk : Nat) (vs : List Nat), (∀ v ∈ vs, v < 2 ^ 64) →
    (∀ v < 2 ^ 64, assemble nb nk (.raw v) = some [.write 0 8 (BitVec.ofNat 64 v)]) ∧
    (vs.length ≠ nk → assemble nb nk (.setKey vs) = none) ∧
    (vs.length ≠ nb → assemble nb nk (.enc vs) = none ∧ assemble nb nk (.dec vs) = none ∧
      assemble nb nk (.loads vs) = none) ∧
    (vs.length = nk → assemble nb nk (.setKey vs) =
      some (vs.zipIdx.map (fun v => .write (0x80 + 8 * v.2) 8 (BitVec.ofNat 64 v.1)) ++
        [.write 0 8 0x3, .poll])) ∧
    (vs.length = nb →
      assemble nb nk (.enc vs) =
        some (vs.zipIdx.map (fun v => .write (0x40 + 8 * v.2) 8 (BitVec.ofNat 64 v.1)) ++
          [.write 0 8 0x4, .poll]) ∧
      assemble nb nk (.dec vs) =
        some (vs.zipIdx.map (fun v => .write (0x40 + 8 * v.2) 8 (BitVec.ofNat 64 v.1)) ++
          [.write 0 8 0x5, .poll]) ∧
      assemble nb nk (.loads vs) =
        some (vs.zipIdx.map (fun v => .write (0x40 + 8 * v.2) 8 (BitVec.ofNat 64 v.1)) ++
          [.write 0 8 0x10]))
end

