-- ==== Sys2Proof/Laws/Bytes.lean ====
section
/-!
SUPPORT. The byte view and the words of a block: what each access reads after each construction (R11).
-/

namespace Sys2Proof

/-- Byte j of a word whose bytes are f (R11: B(W(b)) = b). -/
theorem byteOf_packWord (f : Nat → Byte) {j : Nat} (hj : j < 8) : byteOf (packWord f) j = f j := by
  unfold byteOf packWord
  apply BitVec.eq_of_getLsbD_eq
  intro i hi
  interval_cases j <;> simp only [BitVec.getLsbD_extractLsb', BitVec.getLsbD_append] <;>
    simp [hi] <;>
    interval_cases i <;> simp

/-- A word is the packing of its bytes (R11: W(B(S)) = S). -/
theorem packWord_byteOf (w : Word) : packWord (byteOf w) = w := by
  unfold byteOf packWord
  apply BitVec.eq_of_getLsbD_eq
  intro i hi
  simp only [BitVec.getLsbD_append, BitVec.getLsbD_extractLsb']
  interval_cases i <;> simp

/-- Two words with the same eight bytes are equal. -/
theorem word_eq_of_bytes {u w : Word} (h : ∀ j < 8, byteOf u j = byteOf w j) : u = w := by
  rw [← packWord_byteOf u, ← packWord_byteOf w]
  unfold packWord
  simp [h]

/-- Packing reads its argument at 0..7 only. -/
theorem packWord_congr {f g : Nat → Byte} (h : ∀ j < 8, f j = g j) : packWord f = packWord g := by
  unfold packWord
  simp [h]

theorem xorBytes_congr {f g : Nat → Byte} (h : ∀ k < 8, f k = g k) : xorBytes f = xorBytes g := by
  unfold xorBytes
  simp [h]

namespace Block

theorem word_tab (f : Nat → Word) (i : Nat) : word (tab f) i = if i < 8 then f i else 0 := by
  unfold word tab
  split
  · rename_i h
    interval_cases i <;> rfl
  · rfl

theorem word_ofWords (n : Nat) (f : Nat → Word) (i : Nat) :
    word (ofWords n f) i = if i < n ∧ i < 8 then f i else 0 := by
  unfold ofWords
  rw [word_tab]
  by_cases h8 : i < 8 <;> by_cases hn : i < n <;> simp [h8, hn]

theorem word_merge (n : Nat) (new old : Block) (i : Nat) :
    word (merge n new old) i = if i < n then word new i else word old i := by
  unfold merge
  rw [word_tab]
  split
  · rfl
  · rename_i h
    simp [word, h]

theorem word_of_le (b : Block) {i : Nat} (h : 8 ≤ i) : word b i = 0 := by
  unfold word
  rw [dif_neg (by omega)]

@[simp] theorem word_replicate_zero (i : Nat) : word (Vector.replicate 8 (0 : Word)) i = 0 := by
  unfold word
  split <;> simp

/-- Two blocks with the same words are equal. -/
theorem eq_of_words {a b : Block} (h : ∀ i < 8, word a i = word b i) : a = b := by
  apply Vector.ext
  intro i hi
  have := h i hi
  simpa [word, hi] using this

theorem byte_ofBytes (n : Nat) (f : Nat → Byte) {k : Nat} (hn : n ≤ 8) (hk : k < 8 * n) :
    byte (ofBytes n f) k = f k := by
  unfold byte ofBytes
  rw [word_ofWords, if_pos (by omega), byteOf_packWord _ (by omega)]
  congr 1
  omega

theorem word_setIfInBounds (b : Block) (i j : Nat) (v : Word) :
    word (b.setIfInBounds i v) j = if j = i ∧ i < 8 then v else word b j := by
  unfold word
  by_cases hj : j < 8
  · by_cases hij : j = i
    · subst hij
      simp [hj]
    · simp only [hj, dif_pos]
      rw [Vector.getElem_setIfInBounds]
      simp [hij, show ¬ i = j from fun h => hij h.symm]
  · have : ¬ (j = i ∧ i < 8) := by omega
    simp [hj, this]

end Block

namespace RkFile

theorem block_of_le (rk : RkFile) {j : Nat} (h : 19 ≤ j) : block rk j = Vector.replicate 8 0 := by
  unfold block
  rw [dif_neg (by omega)]

theorem block_write (n : Nat) (rk : RkFile) (j : Nat) (new : Block) (m : Nat) :
    block (write n rk j new) m =
      if m = j ∧ j < 19 then Block.merge n new (block rk j) else block rk m := by
  unfold block write
  by_cases hm : m < 19
  · by_cases hmj : m = j
    · subst hmj
      simp [hm, block]
    · simp only [hm, dif_pos]
      rw [Vector.getElem_setIfInBounds]
      simp [hmj, show ¬ j = m from fun h => hmj h.symm]
  · have : ¬ (m = j ∧ j < 19) := by omega
    simp [hm, this]

/-- A write of RK[j][0..n-1] changes word i of block m only if m = j and i < n. -/
theorem word_write (n : Nat) (rk : RkFile) (j : Nat) (new : Block) (m i : Nat) :
    Block.word (block (write n rk j new) m) i =
      if m = j ∧ j < 19 ∧ i < n then Block.word new i else Block.word (block rk m) i := by
  rw [block_write]
  by_cases h : m = j ∧ j < 19
  · rw [if_pos h, Block.word_merge]
    obtain ⟨rfl, h19⟩ := h
    by_cases hi : i < n <;> simp [h19, hi]
  · rw [if_neg h]
    have : ¬ (m = j ∧ j < 19 ∧ i < n) := fun ⟨a, b, _⟩ => h ⟨a, b⟩
    simp [this]

/-- Two round-key files with the same words are equal. -/
theorem eq_of_words {a b : RkFile}
    (h : ∀ j < 19, ∀ i < 8, Block.word (block a j) i = Block.word (block b j) i) : a = b := by
  apply Vector.ext
  intro j hj
  have := Block.eq_of_words (h j hj)
  simpa [block, hj] using this

end RkFile

end Sys2Proof
end

