-- ==== Sys2Proof/Laws/State.lean ====
section
/-!
SUPPORT. What each named update of the state leaves in each field.
-/

namespace Sys2Proof.Machine.State

@[simp] theorem putState_params (s : State) (new : Block) : (s.putState new).params = s.params := rfl
@[simp] theorem putState_lc (s : State) (new : Block) : (s.putState new).lc = s.lc := rfl
@[simp] theorem putState_nb (s : State) (new : Block) : (s.putState new).nb = s.nb := rfl
@[simp] theorem putState_nk (s : State) (new : Block) : (s.putState new).nk = s.nk := rfl
@[simp] theorem putState_nr (s : State) (new : Block) : (s.putState new).nr = s.nr := rfl
@[simp] theorem putState_state (s : State) (new : Block) : (s.putState new).state = Block.merge s.cols new s.state := rfl
@[simp] theorem putState_rk (s : State) (new : Block) : (s.putState new).rk = s.rk := rfl
@[simp] theorem putState_kt (s : State) (new : Block) : (s.putState new).kt = s.kt := rfl
@[simp] theorem putState_tmv (s : State) (new : Block) : (s.putState new).tmv = s.tmv := rfl
@[simp] theorem putState_ktRound (s : State) (new : Block) : (s.putState new).ktRound = s.ktRound := rfl
@[simp] theorem putState_initialData (s : State) (new : Block) : (s.putState new).initialData = s.initialData := rfl
@[simp] theorem putState_k0 (s : State) (new : Block) : (s.putState new).k0 = s.k0 := rfl
@[simp] theorem putState_k1 (s : State) (new : Block) : (s.putState new).k1 = s.k1 := rfl
@[simp] theorem putState_din (s : State) (new : Block) : (s.putState new).din = s.din := rfl
@[simp] theorem putState_key (s : State) (new : Block) : (s.putState new).key = s.key := rfl
@[simp] theorem putState_sout (s : State) (new : Block) : (s.putState new).sout = s.sout := rfl
@[simp] theorem putState_errSeen (s : State) (new : Block) : (s.putState new).errSeen = s.errSeen := rfl
@[simp] theorem putState_protoErr (s : State) (new : Block) : (s.putState new).protoErr = s.protoErr := rfl
@[simp] theorem putState_lastErr (s : State) (new : Block) : (s.putState new).lastErr = s.lastErr := rfl
@[simp] theorem putState_running (s : State) (new : Block) : (s.putState new).running = s.running := rfl
@[simp] theorem putState_pending (s : State) (new : Block) : (s.putState new).pending = s.pending := rfl
@[simp] theorem putState_got (s : State) (new : Block) : (s.putState new).got = s.got := rfl
@[simp] theorem putState_freeIdx (s : State) (new : Block) : (s.putState new).freeIdx = s.freeIdx := rfl

@[simp] theorem putSout_params (s : State) (y : Byte) : (s.putSout y).params = s.params := rfl
@[simp] theorem putSout_lc (s : State) (y : Byte) : (s.putSout y).lc = s.lc := rfl
@[simp] theorem putSout_nb (s : State) (y : Byte) : (s.putSout y).nb = s.nb := rfl
@[simp] theorem putSout_nk (s : State) (y : Byte) : (s.putSout y).nk = s.nk := rfl
@[simp] theorem putSout_nr (s : State) (y : Byte) : (s.putSout y).nr = s.nr := rfl
@[simp] theorem putSout_state (s : State) (y : Byte) : (s.putSout y).state = s.state := rfl
@[simp] theorem putSout_rk (s : State) (y : Byte) : (s.putSout y).rk = s.rk := rfl
@[simp] theorem putSout_kt (s : State) (y : Byte) : (s.putSout y).kt = s.kt := rfl
@[simp] theorem putSout_tmv (s : State) (y : Byte) : (s.putSout y).tmv = s.tmv := rfl
@[simp] theorem putSout_ktRound (s : State) (y : Byte) : (s.putSout y).ktRound = s.ktRound := rfl
@[simp] theorem putSout_initialData (s : State) (y : Byte) : (s.putSout y).initialData = s.initialData := rfl
@[simp] theorem putSout_k0 (s : State) (y : Byte) : (s.putSout y).k0 = s.k0 := rfl
@[simp] theorem putSout_k1 (s : State) (y : Byte) : (s.putSout y).k1 = s.k1 := rfl
@[simp] theorem putSout_din (s : State) (y : Byte) : (s.putSout y).din = s.din := rfl
@[simp] theorem putSout_key (s : State) (y : Byte) : (s.putSout y).key = s.key := rfl
@[simp] theorem putSout_sout (s : State) (y : Byte) : (s.putSout y).sout = y.setWidth 64 := rfl
@[simp] theorem putSout_errSeen (s : State) (y : Byte) : (s.putSout y).errSeen = s.errSeen := rfl
@[simp] theorem putSout_protoErr (s : State) (y : Byte) : (s.putSout y).protoErr = s.protoErr := rfl
@[simp] theorem putSout_lastErr (s : State) (y : Byte) : (s.putSout y).lastErr = s.lastErr := rfl
@[simp] theorem putSout_running (s : State) (y : Byte) : (s.putSout y).running = s.running := rfl
@[simp] theorem putSout_pending (s : State) (y : Byte) : (s.putSout y).pending = s.pending := rfl
@[simp] theorem putSout_got (s : State) (y : Byte) : (s.putSout y).got = s.got := rfl
@[simp] theorem putSout_freeIdx (s : State) (y : Byte) : (s.putSout y).freeIdx = s.freeIdx := rfl

@[simp] theorem clearContext_params (s : State) : (s.clearContext).params = s.params := rfl
@[simp] theorem clearContext_lc (s : State) : (s.clearContext).lc = s.lc := rfl
@[simp] theorem clearContext_nb (s : State) : (s.clearContext).nb = s.nb := rfl
@[simp] theorem clearContext_nk (s : State) : (s.clearContext).nk = s.nk := rfl
@[simp] theorem clearContext_nr (s : State) : (s.clearContext).nr = s.nr := rfl
@[simp] theorem clearContext_state (s : State) : (s.clearContext).state = zeroBlock := rfl
@[simp] theorem clearContext_rk (s : State) : (s.clearContext).rk = zeroRk := rfl
@[simp] theorem clearContext_kt (s : State) : (s.clearContext).kt = zeroBlock := rfl
@[simp] theorem clearContext_tmv (s : State) : (s.clearContext).tmv = zeroBlock := rfl
@[simp] theorem clearContext_ktRound (s : State) : (s.clearContext).ktRound = zeroBlock := rfl
@[simp] theorem clearContext_initialData (s : State) : (s.clearContext).initialData = zeroBlock := rfl
@[simp] theorem clearContext_k0 (s : State) : (s.clearContext).k0 = zeroBlock := rfl
@[simp] theorem clearContext_k1 (s : State) : (s.clearContext).k1 = zeroBlock := rfl
@[simp] theorem clearContext_din (s : State) : (s.clearContext).din = s.din := rfl
@[simp] theorem clearContext_key (s : State) : (s.clearContext).key = s.key := rfl
@[simp] theorem clearContext_sout (s : State) : (s.clearContext).sout = s.sout := rfl
@[simp] theorem clearContext_errSeen (s : State) : (s.clearContext).errSeen = s.errSeen := rfl
@[simp] theorem clearContext_protoErr (s : State) : (s.clearContext).protoErr = s.protoErr := rfl
@[simp] theorem clearContext_lastErr (s : State) : (s.clearContext).lastErr = s.lastErr := rfl
@[simp] theorem clearContext_running (s : State) : (s.clearContext).running = s.running := rfl
@[simp] theorem clearContext_pending (s : State) : (s.clearContext).pending = s.pending := rfl
@[simp] theorem clearContext_got (s : State) : (s.clearContext).got = s.got := rfl
@[simp] theorem clearContext_freeIdx (s : State) : (s.clearContext).freeIdx = s.freeIdx := rfl

@[simp] theorem resetBlock_params (s : State) : (s.resetBlock).params = s.params := rfl
@[simp] theorem resetBlock_lc (s : State) : (s.resetBlock).lc = .none := rfl
@[simp] theorem resetBlock_nb (s : State) : (s.resetBlock).nb = 0 := rfl
@[simp] theorem resetBlock_nk (s : State) : (s.resetBlock).nk = 0 := rfl
@[simp] theorem resetBlock_nr (s : State) : (s.resetBlock).nr = 0 := rfl
@[simp] theorem resetBlock_state (s : State) : (s.resetBlock).state = zeroBlock := rfl
@[simp] theorem resetBlock_rk (s : State) : (s.resetBlock).rk = zeroRk := rfl
@[simp] theorem resetBlock_kt (s : State) : (s.resetBlock).kt = zeroBlock := rfl
@[simp] theorem resetBlock_tmv (s : State) : (s.resetBlock).tmv = zeroBlock := rfl
@[simp] theorem resetBlock_ktRound (s : State) : (s.resetBlock).ktRound = zeroBlock := rfl
@[simp] theorem resetBlock_initialData (s : State) : (s.resetBlock).initialData = zeroBlock := rfl
@[simp] theorem resetBlock_k0 (s : State) : (s.resetBlock).k0 = zeroBlock := rfl
@[simp] theorem resetBlock_k1 (s : State) : (s.resetBlock).k1 = zeroBlock := rfl
@[simp] theorem resetBlock_din (s : State) : (s.resetBlock).din = zeroBlock := rfl
@[simp] theorem resetBlock_key (s : State) : (s.resetBlock).key = zeroBlock := rfl
@[simp] theorem resetBlock_sout (s : State) : (s.resetBlock).sout = 0 := rfl
@[simp] theorem resetBlock_errSeen (s : State) : (s.resetBlock).errSeen = false := rfl
@[simp] theorem resetBlock_protoErr (s : State) : (s.resetBlock).protoErr = false := rfl
@[simp] theorem resetBlock_lastErr (s : State) : (s.resetBlock).lastErr = .ok := rfl
@[simp] theorem resetBlock_running (s : State) : (s.resetBlock).running = none := rfl
@[simp] theorem resetBlock_pending (s : State) : (s.resetBlock).pending = s.pending := rfl
@[simp] theorem resetBlock_got (s : State) : (s.resetBlock).got = s.got := rfl
@[simp] theorem resetBlock_freeIdx (s : State) : (s.resetBlock).freeIdx = s.freeIdx := rfl

@[simp] theorem putState_cols (s : State) (new : Block) : (s.putState new).cols = s.cols := rfl

/-- A write of a register other than CMD changes DIN or KEY and nothing else (R77). -/
theorem writeReg_eq (s : State) (n : Nat) (v : Word) :
    s.writeReg n v = { s with din := (s.writeReg n v).din, key := (s.writeReg n v).key } := by
  unfold writeReg
  split
  · rfl
  · split <;> rfl

end Sys2Proof.Machine.State
end

