-- ==== Sys2Proof/Laws/Ops.lean ====
section
/-!
SUPPORT. What each shared operation of the machine can do, said once: error entry and completion, the
lifecycle check, the write of STATE, and the outcome of any command.
-/

namespace Sys2Proof.Machine

theorem raise_eq_next {e : ErrorCode} {s t : State} (h : raise e s = .next t) :
    t = { s with lastErr := e, errSeen := true } := by
  unfold raise at h
  cases h
  rfl

theorem complete_eq_next {s t : State} (h : complete s = .next t) : t = { s with lastErr := .ok } := by
  unfold complete at h
  cases h
  rfl

/-- A lifecycle check that passes runs the command (R343). -/
theorem guarded_of_allowed {o : Op} {s : State} (r : Result) (h : o.requires.allows s.lc = true) :
    guarded o s r = r := by
  unfold guarded
  rw [if_pos h]

/-- A lifecycle check that fails raises INVALID_STATE (R343, R344). -/
theorem guarded_of_not_allowed {o : Op} {s : State} (r : Result) (h : o.requires.allows s.lc = false) :
    guarded o s r = raise .invalidState s := by
  unfold guarded
  simp [h]

theorem allows_context_iff {lc : Lifecycle} : LcReq.context.allows lc = true ↔ lc ≠ .none := by
  cases lc <;> decide

theorem allows_expanded_iff {lc : Lifecycle} : LcReq.expanded.allows lc = true ↔ lc = .keyExpanded := by
  cases lc <;> decide

/-- A write of STATE replaces word i exactly if i < nb (R15, R34). -/
theorem word_putState (s : State) (new : Block) (i : Nat) :
    Block.word (s.putState new).state i = if i < s.cols then Block.word new i else Block.word s.state i := by
  simp [Block.word_merge]

@[simp] theorem word_zeroBlock (i : Nat) : Block.word zeroBlock i = 0 :=
  Block.word_replicate_zero i

@[simp] theorem block_zeroRk (j : Nat) : RkFile.block zeroRk j = zeroBlock := by
  unfold RkFile.block zeroRk
  split
  · simp
  · rfl

/-- The commands whose whole effect is a write of STATE. -/
def writesStateOnly : Instr → Bool
  | .init _ _ | .teardown | .keyExpand | .gfMul _ _ | .sbox _ _ | .invSbox _ _ => false
  | .encipher | .decipher | .loadState | .subBytes | .invSubBytes | .shiftRows | .invShiftRows => true
  | .mixColumns | .invMixColumns | .encRound | .decRound => true
  | .addRk _ | .subRk _ | .xorRk _ | .addDin | .xorDin => true

/-- The commands whose whole effect is a write of SOUT. -/
def writesSoutOnly : Instr → Bool
  | .gfMul _ _ | .sbox _ _ | .invSbox _ _ => true
  | .init _ _ | .teardown | .keyExpand | .encipher | .decipher | .loadState => false
  | .subBytes | .invSubBytes | .shiftRows | .invShiftRows | .mixColumns | .invMixColumns => false
  | .encRound | .decRound | .addRk _ | .subRk _ | .xorRk _ | .addDin | .xorDin => false

/-- The state a successful INIT of configuration cf leaves (R141). -/
def initialised (cf : Conf) (s : State) : State :=
  { s.clearContext with
    nb := BitVec.ofNat 8 cf.nb, nk := BitVec.ofNat 8 cf.nk,
    nr := BitVec.ofNat 8 (s.params.nrTable.rounds cf), lc := .created, lastErr := .ok }

/-- The state TEARDOWN leaves (R145). -/
def tornDown (s : State) : State :=
  { s.clearContext with nb := 0, nk := 0, nr := 0, lc := .none, lastErr := .ok }

/-- The state KEY_EXPAND leaves, of the registers k its stages leave (R281). -/
def expanded (k : Sched) (s : State) : State :=
  { s.putState k.state with
    rk := k.rk, kt := k.kt, tmv := k.tmv, ktRound := k.ktRound, initialData := k.initialData, k0 := k.k0,
    k1 := k.k1, lc := .keyExpanded, lastErr := .ok }

/-- The registers the stages of KEY_EXPAND leave in s (R281). -/
def scheduleOf (s : State) : Sched := keySchedule s.params s.cols s.nk.toNat s.nr.toNat s.keyIn s.rk

/-- Everything a command can do, as the outcome of `exec`: an error that changes only LAST_ERR and ERR_SEEN
(R344), or the effect of INIT, of TEARDOWN, of KEY_EXPAND, a write of STATE, a write of SOUT, with
LAST_ERR <- 0 (R345). -/
theorem exec_cases (i : Instr) (s : State) :
    (∃ e, e ≠ .ok ∧ e ≠ .allocationFailure ∧ e ≠ .illegalCommand ∧
      exec i s = .next { s with lastErr := e, errSeen := true }) ∨
    (∃ blk keyb cf, i = .init blk keyb ∧ Conf.ofSizes blk keyb = some cf ∧
      exec i s = .next (initialised cf s)) ∨
    (i = .teardown ∧ exec i s = .next (tornDown s)) ∨
    (i = .keyExpand ∧ s.lc ≠ .none ∧ exec i s = .next (expanded (scheduleOf s) s)) ∨
    (writesStateOnly i = true ∧ s.lc ≠ .none ∧
      ∃ v, exec i s = .next { s.putState v with lastErr := .ok }) ∨
    (writesSoutOnly i = true ∧ ∃ y, exec i s = .next { s.putSout y with lastErr := .ok }) := by
  have errors : ∀ (o : Op) (r : Result), o.requires.allows s.lc = true ∨
      guarded o s r = .next { s with lastErr := .invalidState, errSeen := true } := by
    intro o r
    cases h : o.requires.allows s.lc with
    | true => exact .inl rfl
    | false => exact .inr (guarded_of_not_allowed r h)
  have context : ∀ {lc : Lifecycle}, LcReq.context.allows lc = true → lc ≠ .none :=
    fun h => allows_context_iff.1 h
  have keyed : ∀ {lc : Lifecycle}, LcReq.expanded.allows lc = true → lc ≠ .none := by
    intro lc h
    rw [allows_expanded_iff] at h
    simp [h]
  cases i with
  | init blk keyb =>
    cases h : Conf.ofSizes blk keyb with
    | none =>
      refine .inl ⟨.unsupportedConfiguration, by decide, by decide, by decide, ?_⟩
      simp [exec, execInit, guarded, Op.requires, LcReq.allows, h, raise]
    | some cf =>
      refine .inr (.inl ⟨blk, keyb, cf, rfl, h, ?_⟩)
      simp [exec, execInit, guarded, Op.requires, LcReq.allows, h, complete, initialised]
  | teardown => exact .inr (.inr (.inl ⟨rfl, rfl⟩))
  | keyExpand =>
    rcases errors .keyExpand _ with h | h
    · exact .inr (.inr (.inr (.inl ⟨rfl, context h, guarded_of_allowed _ h⟩)))
    · exact .inl ⟨_, by decide, by decide, by decide, h⟩
  | gfMul a b => exact .inr (.inr (.inr (.inr (.inr ⟨rfl, _, rfl⟩))))
  | sbox t x => exact .inr (.inr (.inr (.inr (.inr ⟨rfl, _, rfl⟩))))
  | invSbox t x => exact .inr (.inr (.inr (.inr (.inr ⟨rfl, _, rfl⟩))))
  | addRk j =>
    rcases errors .addRk _ with h | h
    · cases hj : s.indexOutOfRange j with
      | true =>
        refine .inl ⟨.range, by decide, by decide, by decide, (guarded_of_allowed _ h).trans ?_⟩
        simp [hj, raise]
      | false =>
        refine .inr (.inr (.inr (.inr (.inl ⟨rfl, keyed h, addKey s.cols s.state (s.roundKey j),
          (guarded_of_allowed _ h).trans ?_⟩))))
        rw [if_neg (by simp [hj])]
        rfl
    · exact .inl ⟨_, by decide, by decide, by decide, h⟩
  | subRk j =>
    rcases errors .subRk _ with h | h
    · cases hj : s.indexOutOfRange j with
      | true =>
        refine .inl ⟨.range, by decide, by decide, by decide, (guarded_of_allowed _ h).trans ?_⟩
        simp [hj, raise]
      | false =>
        refine .inr (.inr (.inr (.inr (.inl ⟨rfl, keyed h, subKey s.cols s.state (s.roundKey j),
          (guarded_of_allowed _ h).trans ?_⟩))))
        rw [if_neg (by simp [hj])]
        rfl
    · exact .inl ⟨_, by decide, by decide, by decide, h⟩
  | xorRk j =>
    rcases errors .xorRk _ with h | h
    · cases hj : s.indexOutOfRange j with
      | true =>
        refine .inl ⟨.range, by decide, by decide, by decide, (guarded_of_allowed _ h).trans ?_⟩
        simp [hj, raise]
      | false =>
        refine .inr (.inr (.inr (.inr (.inl ⟨rfl, keyed h, xorKey s.cols s.state (s.roundKey j),
          (guarded_of_allowed _ h).trans ?_⟩))))
        rw [if_neg (by simp [hj])]
        rfl
    · exact .inl ⟨_, by decide, by decide, by decide, h⟩
  | encipher | decipher =>
    rcases errors .encipher _ with h | h
    · exact .inr (.inr (.inr (.inr (.inl ⟨rfl, keyed h, _, guarded_of_allowed _ h⟩))))
    · exact .inl ⟨_, by decide, by decide, by decide, h⟩
  | loadState | subBytes | invSubBytes | shiftRows | invShiftRows | mixColumns | invMixColumns | encRound
  | decRound | addDin | xorDin =>
    rcases errors .loadState _ with h | h
    · exact .inr (.inr (.inr (.inr (.inl ⟨rfl, context h, _, guarded_of_allowed _ h⟩))))
    · exact .inl ⟨_, by decide, by decide, by decide, h⟩

/-- Every command answers a next state: a command error is recorded and stops nothing (R340, R347). -/
theorem exec_next (i : Instr) (s : State) : ∃ t, exec i s = .next t := by
  rcases exec_cases i s with ⟨_, -, -, -, h⟩ | ⟨_, _, _, -, -, h⟩ | ⟨-, h⟩ | ⟨-, -, h⟩ | ⟨-, -, _, h⟩ | ⟨-, _, h⟩ <;>
    exact ⟨_, h⟩

end Sys2Proof.Machine
end

