-- ==== Sys2Proof/Laws/Bus.lean ====
section
/-!
SUPPORT. What a command word, the engine's part of a cycle and a cycle can do.
-/

namespace Sys2Proof.Machine

/-- A command word always answers a next state (R107, R340). -/
theorem runCommand_next (c : Word) (s : State) : ∃ t, runCommand c s = .next t := by
  unfold runCommand
  split
  · exact exec_next _ s
  · exact ⟨_, rfl⟩

/-- The engine's part of a cycle: nothing, one cycle less, or the command's completion (R384, R389). -/
theorem tick_cases (s : State) :
    (s.running = none ∧ tick s = .next s) ∨
    (∃ r, s.running = some r ∧ 1 < r.left ∧
      tick s = .next { s with running := some ⟨r.cmd, r.left - 1⟩ }) ∨
    (∃ r, s.running = some r ∧ r.left ≤ 1 ∧ tick s = runCommand r.cmd { s with running := none }) := by
  unfold tick
  cases hr : s.running with
  | none => exact .inl ⟨rfl, rfl⟩
  | some r =>
    by_cases hl : r.left ≤ 1
    · exact .inr (.inr ⟨r, rfl, hl, by simp [hl]⟩)
    · exact .inr (.inl ⟨r, rfl, by omega, by simp [hl]⟩)

/-- A CMD write while no command runs: the command completes, or it is the running command (R384). -/
theorem startCommand_cases (c : Word) (s : State) :
    (s.latencyOf c = 0 ∧ startCommand c s = runCommand c s) ∨
    (0 < s.latencyOf c ∧ startCommand c s = .next { s with running := some ⟨c, s.latencyOf c⟩ }) := by
  unfold startCommand
  by_cases h : s.latencyOf c = 0
  · exact .inl ⟨h, by rw [if_pos h]⟩
  · exact .inr ⟨by omega, by rw [if_neg h]⟩

/-- The engine's part of a cycle always answers a next state. -/
theorem tick_next (s : State) : ∃ t, tick s = .next t := by
  rcases tick_cases s with ⟨-, h⟩ | ⟨r, -, -, h⟩ | ⟨r, -, -, h⟩
  · exact ⟨_, h⟩
  · exact ⟨_, h⟩
  · rw [h]
    exact runCommand_next _ _

/-- A host write: lost while BUSY, a command's start at CMD, a store elsewhere (R42, R77, R385). -/
theorem hostWrite_cases (n : Nat) (v : Word) (s : State) :
    (s.busy = true ∧ hostWrite n v s = tick { s with protoErr := true }) ∨
    (s.busy = false ∧ n = 0 ∧ hostWrite n v s = startCommand v s) ∨
    (s.busy = false ∧ n ≠ 0 ∧ hostWrite n v s = .next (s.writeReg n v)) := by
  unfold hostWrite
  cases hb : s.busy with
  | true => exact .inl ⟨rfl, by simp⟩
  | false =>
    by_cases hn : n = 0
    · exact .inr (.inl ⟨rfl, hn, by simp [hn]⟩)
    · exact .inr (.inr ⟨rfl, hn, by simp [hn]⟩)

/-- A host read changes only what the host has read and the counter of unspecified reads (R77, R386). -/
theorem hostRead_eq (n : Nat) (s : State) :
    hostRead n s = { s with got := (hostRead n s).got, freeIdx := (hostRead n s).freeIdx } := by
  unfold hostRead
  split <;> rfl

/-- Everything a cycle can do, with the state that its event leaves to the engine. -/
theorem cycle_cases (s : State) :
    (cycle s = tick s ∧ (s.pending = [] ∨ s.busy = true)) ∨
    (∃ rest, s.pending = .idle :: rest ∧ cycle s = tick { s with pending := rest }) ∨
    (∃ a rest, s.pending = .read a 8 :: rest ∧ accessOk a 8 = true ∧
      cycle s = tick (hostRead (a / 8) { s with pending := rest })) ∨
    (∃ a v rest, s.pending = .write a 8 v :: rest ∧ accessOk a 8 = true ∧
      cycle s = hostWrite (a / 8) v { s with pending := rest }) ∨
    (∃ rest, s.pending = .poll :: rest ∧ s.busy = false ∧
      cycle s = tick (hostRead 1 { s with pending := rest })) ∨
    (∃ rest, s.pending = .reset :: rest ∧ cycle s = .next { s.resetBlock with pending := rest }) ∨
    (∃ a w, accessOk a w = false ∧ cycle s = .refused (.badAccess a w)) ∨
    (∃ rest, s.pending = .awaitSignal :: rest ∧ s.busy = false ∧
      cycle s = .fault .hostWaitsForSignal) := by
  have width8 : ∀ a w, accessOk a w = true → w = 8 := by
    intro a w h
    unfold accessOk at h
    simp only [Bool.and_eq_true, decide_eq_true_eq] at h
    exact h.1.1
  unfold cycle
  split
  · rename_i h
    exact .inl ⟨rfl, .inl h⟩
  · rename_i rest h
    exact .inr (.inl ⟨rest, h, rfl⟩)
  · rename_i a w rest h
    by_cases hok : accessOk a w = true
    · obtain rfl := width8 a w hok
      exact .inr (.inr (.inl ⟨a, rest, h, hok, by simp [hok]⟩))
    · exact .inr (.inr (.inr (.inr (.inr (.inr (.inl ⟨a, w, by simpa using hok, by simp [hok]⟩))))))
  · rename_i a w v rest h
    by_cases hok : accessOk a w = true
    · obtain rfl := width8 a w hok
      exact .inr (.inr (.inr (.inl ⟨a, v, rest, h, hok, by simp [hok]⟩)))
    · exact .inr (.inr (.inr (.inr (.inr (.inr (.inl ⟨a, w, by simpa using hok, by simp [hok]⟩))))))
  · rename_i rest h
    cases hb : s.busy with
    | true => exact .inl ⟨by simp, .inr rfl⟩
    | false => exact .inr (.inr (.inr (.inr (.inl ⟨rest, h, rfl, by simp⟩))))
  · rename_i rest h
    cases hb : s.busy with
    | true => exact .inl ⟨by simp, .inr rfl⟩
    | false => exact .inr (.inr (.inr (.inr (.inr (.inr (.inr ⟨rest, h, rfl, by simp⟩))))))
  · rename_i rest h
    exact .inr (.inr (.inr (.inr (.inr (.inl ⟨rest, h, rfl⟩)))))

end Sys2Proof.Machine
end

