-- ==== Sys2Proof/Laws/Decode.lean ====
section
/-!
SUPPORT. The decoder's check of the reserved bits, format by format, as arithmetic on the word, and the
number a command's encoding is.
-/

namespace Sys2Proof

theorem field_eq (c : Word) (hi lo : Nat) : field c hi lo = c.toNat / 2 ^ lo % 2 ^ (hi - lo + 1) := by
  unfold field
  rw [Nat.shiftRight_eq_div_pow]

/-- A bit of a word is a bit of its number. -/
theorem testBit_toNat (c : Word) (i : Nat) : c.toNat.testBit i = c.getLsbD i := rfl

theorem testBit_code {k i : Nat} (hk : k < 256) (hi : 8 ≤ i) : k.testBit i = false :=
  Nat.testBit_lt_two_pow (Nat.lt_of_lt_of_le hk (by simpa using Nat.pow_le_pow_right (by decide : 0 < 2) hi))

/-- Equal numbers below 2^n have equal bits below n, and conversely. -/
theorem mod_two_pow_eq_iff (a b n : Nat) :
    a % 2 ^ n = b % 2 ^ n ↔ ∀ i < n, a.testBit i = b.testBit i := by
  constructor
  · intro h i hi
    have := congrArg (fun x => x.testBit i) h
    simpa [Nat.testBit_mod_two_pow, hi] using this
  · intro h
    apply Nat.eq_of_testBit_eq
    intro i
    simp only [Nat.testBit_mod_two_pow]
    by_cases hi : i < n
    · simp [hi, h i hi]
    · simp [hi]

/-- A field is 0 exactly if its bits are. -/
theorem div_mod_eq_zero_iff (a lo n : Nat) :
    a / 2 ^ lo % 2 ^ n = 0 ↔ ∀ i, lo ≤ i → i < lo + n → a.testBit i = false := by
  have h := mod_two_pow_eq_iff (a / 2 ^ lo) 0 n
  simp only [Nat.zero_mod, Nat.zero_testBit] at h
  rw [h]
  constructor
  · intro h i hlo hi
    have := h (i - lo) (by omega)
    rw [Nat.testBit_div_two_pow] at this
    rwa [show i - lo + lo = i by omega] at this
  · intro h i hi
    rw [Nat.testBit_div_two_pow]
    exact h _ (by omega) (by omega)

/-- The masked word equals the opcode exactly if it does bit by bit. -/
theorem masked_eq_iff (c m : Word) (k : Nat) :
    c &&& ~~~ m = BitVec.ofNat 64 k ↔
      ∀ i < 64, (c.toNat.testBit i && !m.getLsbD i) = k.testBit i := by
  constructor
  · intro h i hi
    have := congrArg (fun x => BitVec.getLsbD x i) h
    simpa only [BitVec.getLsbD_and, BitVec.getLsbD_not, BitVec.getLsbD_ofNat, hi, decide_true,
      Bool.true_and, testBit_toNat] using this
  · intro h
    apply BitVec.eq_of_getLsbD_eq
    intro i hi
    have := h i hi
    simpa only [BitVec.getLsbD_and, BitVec.getLsbD_not, BitVec.getLsbD_ofNat, hi, decide_true,
      Bool.true_and, testBit_toNat] using this

/-- Format N (R102): the word is the opcode. -/
theorem masked_n {c : Word} {k : Nat} (hk : k < 256) :
    c &&& ~~~ Format.n.freemask = BitVec.ofNat 64 k ↔ c.toNat = k := by
  have hm : ~~~ Format.n.freemask = BitVec.allOnes 64 := by decide
  have h0 : c &&& ~~~ Format.n.freemask = c := by rw [hm, BitVec.and_allOnes]
  rw [h0, ← BitVec.toNat_inj, BitVec.toNat_ofNat, Nat.mod_eq_of_lt (by omega)]

/-- Format I (R103): bits 31:0 are the opcode. -/
theorem masked_i {c : Word} {k : Nat} (hk : k < 256) :
    c &&& ~~~ Format.i.freemask = BitVec.ofNat 64 k ↔ c.toNat % 2 ^ 32 = k := by
  rw [masked_eq_iff,
    show (c.toNat % 2 ^ 32 = k ↔ c.toNat % 2 ^ 32 = k % 2 ^ 32) by
      rw [Nat.mod_eq_of_lt (by omega : k < 2 ^ 32)],
    mod_two_pow_eq_iff]
  have hm : ∀ i < 64, Format.i.freemask.getLsbD i = decide (32 ≤ i) := by decide
  constructor
  · intro h i hi
    have := h i (by omega)
    rw [hm i (by omega)] at this
    simpa [show ¬ 32 ≤ i by omega] using this
  · intro h i hi
    rw [hm i hi]
    by_cases hlo : 32 ≤ i
    · simp [hlo, testBit_code hk (by omega : 8 ≤ i)]
    · simp [hlo, h i (by omega)]

/-- Format R (R104): bits 7:0 are the opcode and bits 63:16 are 0. -/
theorem masked_r {c : Word} {k : Nat} (hk : k < 256) :
    c &&& ~~~ Format.r.freemask = BitVec.ofNat 64 k ↔
      c.toNat % 2 ^ 8 = k ∧ c.toNat / 2 ^ 16 % 2 ^ 48 = 0 := by
  rw [masked_eq_iff, div_mod_eq_zero_iff,
    show (c.toNat % 2 ^ 8 = k ↔ c.toNat % 2 ^ 8 = k % 2 ^ 8) by rw [Nat.mod_eq_of_lt (by omega : k < 2 ^ 8)],
    mod_two_pow_eq_iff]
  have hm : ∀ i < 64, Format.r.freemask.getLsbD i = decide (8 ≤ i ∧ i < 16) := by decide
  constructor
  · intro h
    refine ⟨fun i hi => ?_, fun i hlo hi => ?_⟩
    · have := h i (by omega)
      rw [hm i (by omega)] at this
      simpa [show ¬ (8 ≤ i ∧ i < 16) by omega] using this
    · have := h i (by omega)
      rw [hm i (by omega), testBit_code hk (by omega)] at this
      simpa [show ¬ (8 ≤ i ∧ i < 16) by omega] using this
  · rintro ⟨h1, h2⟩ i hi
    rw [hm i hi]
    by_cases h8 : i < 8
    · simp [show ¬ (8 ≤ i ∧ i < 16) by omega, h1 i h8]
    · rw [testBit_code hk (by omega)]
      by_cases h16 : i < 16
      · simp [show 8 ≤ i ∧ i < 16 by omega]
      · simp [h2 i (by omega) (by omega)]

/-- Format G (R105): bits 15:0 are the opcode and bits 63:32 are 0. -/
theorem masked_g {c : Word} {k : Nat} (hk : k < 256) :
    c &&& ~~~ Format.g.freemask = BitVec.ofNat 64 k ↔
      c.toNat % 2 ^ 16 = k ∧ c.toNat / 2 ^ 32 % 2 ^ 32 = 0 := by
  rw [masked_eq_iff, div_mod_eq_zero_iff,
    show (c.toNat % 2 ^ 16 = k ↔ c.toNat % 2 ^ 16 = k % 2 ^ 16) by
      rw [Nat.mod_eq_of_lt (by omega : k < 2 ^ 16)],
    mod_two_pow_eq_iff]
  have hm : ∀ i < 64, Format.g.freemask.getLsbD i = decide (16 ≤ i ∧ i < 32) := by decide
  constructor
  · intro h
    refine ⟨fun i hi => ?_, fun i hlo hi => ?_⟩
    · have := h i (by omega)
      rw [hm i (by omega)] at this
      simpa [show ¬ (16 ≤ i ∧ i < 32) by omega] using this
    · have := h i (by omega)
      rw [hm i (by omega), testBit_code hk (by omega)] at this
      simpa [show ¬ (16 ≤ i ∧ i < 32) by omega] using this
  · rintro ⟨h1, h2⟩ i hi
    rw [hm i hi]
    by_cases h16 : i < 16
    · simp [show ¬ (16 ≤ i ∧ i < 32) by omega, h1 i h16]
    · rw [testBit_code hk (by omega)]
      by_cases h32 : i < 32
      · simp [show 16 ≤ i ∧ i < 32 by omega]
      · simp [h2 i (by omega) (by omega)]

/-- Format T (R106): bits 7:0 are the opcode and bits 15:10 and 63:24 are 0. -/
theorem masked_t {c : Word} {k : Nat} (hk : k < 256) :
    c &&& ~~~ Format.t.freemask = BitVec.ofNat 64 k ↔
      c.toNat % 2 ^ 8 = k ∧ c.toNat / 2 ^ 10 % 2 ^ 6 = 0 ∧ c.toNat / 2 ^ 24 % 2 ^ 40 = 0 := by
  rw [masked_eq_iff, div_mod_eq_zero_iff, div_mod_eq_zero_iff,
    show (c.toNat % 2 ^ 8 = k ↔ c.toNat % 2 ^ 8 = k % 2 ^ 8) by rw [Nat.mod_eq_of_lt (by omega : k < 2 ^ 8)],
    mod_two_pow_eq_iff]
  have hm : ∀ i < 64, Format.t.freemask.getLsbD i = decide ((8 ≤ i ∧ i < 10) ∨ (16 ≤ i ∧ i < 24)) := by
    decide
  constructor
  · intro h
    refine ⟨fun i hi => ?_, fun i hlo hi => ?_, fun i hlo hi => ?_⟩
    · have := h i (by omega)
      rw [hm i (by omega)] at this
      simpa [show ¬ ((8 ≤ i ∧ i < 10) ∨ (16 ≤ i ∧ i < 24)) by omega] using this
    · have := h i (by omega)
      rw [hm i (by omega), testBit_code hk (by omega)] at this
      simpa [show ¬ ((8 ≤ i ∧ i < 10) ∨ (16 ≤ i ∧ i < 24)) by omega] using this
    · have := h i (by omega)
      rw [hm i (by omega), testBit_code hk (by omega)] at this
      simpa [show ¬ ((8 ≤ i ∧ i < 10) ∨ (16 ≤ i ∧ i < 24)) by omega] using this
  · rintro ⟨h1, h2, h3⟩ i hi
    rw [hm i hi]
    by_cases h8 : i < 8
    · simp [show ¬ ((8 ≤ i ∧ i < 10) ∨ (16 ≤ i ∧ i < 24)) by omega, h1 i h8]
    · rw [testBit_code hk (by omega)]
      by_cases ha : (8 ≤ i ∧ i < 10) ∨ (16 ≤ i ∧ i < 24)
      · simp [ha]
      · by_cases hb : i < 16
        · simp [h2 i (by omega) (by omega)]
        · simp [h3 i (by omega) (by omega)]

theorem Op.code_lt (o : Op) : o.code < 256 := by
  cases o <;> decide

theorem Op.ofCode_code (o : Op) : Op.ofCode o.code = some o := by
  cases o <;> decide

/-- The row of an opcode value has that value. -/
theorem Op.code_of_ofCode {n : Nat} {o : Op} (h : Op.ofCode n = some o) : o.code = n := by
  unfold Op.ofCode at h
  simpa using List.find?_some h

/-- The number a well-formed command's encoding is (R101). -/
theorem toNat_encode {i : Instr} (h : i.wf = true) : (encode i).toNat = i.op.code + i.fields := by
  have hc := i.op.code_lt
  have hf : i.fields < 2 ^ 64 - 256 ∨ ∃ blk keyb, i = .init blk keyb := by
    cases i <;> simp_all [Instr.fields, Instr.wf] <;> omega
  unfold encode
  rw [BitVec.toNat_ofNat]
  apply Nat.mod_eq_of_lt
  rcases hf with hf | ⟨blk, keyb, rfl⟩
  · omega
  · simp only [Instr.wf, Bool.and_eq_true, decide_eq_true_eq] at h
    simp only [Instr.fields, Instr.op, Op.code]
    omega

end Sys2Proof
end

