-- ==== Sys2Proof/Laws/Units.lean ====
section
/-!
SUPPORT. What each unit computes, byte by byte or word by word, and that it reads only the words below nb.
-/

namespace Sys2Proof.Machine

/-- An n-word block has zeros above its words (R180). -/
theorem word_ofWords_of_le {n i : Nat} (f : Nat → Word) (h : n ≤ i) : Block.word (Block.ofWords n f) i = 0 := by
  rw [Block.word_ofWords, if_neg (by omega)]

theorem word_ofWords_of_lt {n i : Nat} (f : Nat → Word) (h : i < n) (h8 : i < 8) :
    Block.word (Block.ofWords n f) i = f i := by
  rw [Block.word_ofWords, if_pos ⟨h, h8⟩]

/-- Two n-word blocks are equal if their words below n are. -/
theorem ofWords_congr {n : Nat} {f g : Nat → Word} (h : ∀ i < n, i < 8 → f i = g i) :
    Block.ofWords n f = Block.ofWords n g := by
  apply Block.eq_of_words
  intro i hi
  rw [Block.word_ofWords, Block.word_ofWords]
  by_cases hn : i < n
  · rw [if_pos ⟨hn, hi⟩, if_pos ⟨hn, hi⟩, h i hn hi]
  · rw [if_neg (by omega), if_neg (by omega)]

theorem word_window (n lo : Nat) (b : Block) {i : Nat} (h : i < n) (h8 : i < 8) :
    Block.word (window n lo b) i = Block.word b (lo + i) :=
  word_ofWords_of_lt _ h h8

/-- SubBytes, byte by byte (R161, R162). -/
theorem byteOf_subBytes (p : Params) {nb : Nat} (S : Block) {i j : Nat} (hi : i < nb) (h8 : i < 8)
    (hj : j < 8) :
    byteOf (Block.word (subBytes p nb S) i) j = p.sboxAt (j % 4) (byteOf (Block.word S i) j) := by
  unfold subBytes
  rw [word_ofWords_of_lt _ hi h8, byteOf_packWord _ hj]

/-- InvSubBytes, byte by byte (R163). -/
theorem byteOf_invSubBytes (p : Params) {nb : Nat} (S : Block) {i j : Nat} (hi : i < nb) (h8 : i < 8)
    (hj : j < 8) :
    byteOf (Block.word (invSubBytes p nb S) i) j = p.invSboxAt (j % 4) (byteOf (Block.word S i) j) := by
  unfold invSubBytes
  rw [word_ofWords_of_lt _ hi h8, byteOf_packWord _ hj]

/-- ShiftRows, byte by byte (R182). -/
theorem byteOf_shiftRows {nb : Nat} (S : Block) {c r : Nat} (hc : c < nb) (h8 : c < 8) (hr : r < 8) :
    byteOf (Block.word (shiftRows nb S) c) r =
      byteOf (Block.word S ((c + nb - shiftAmount nb r) % nb)) r := by
  unfold shiftRows
  rw [word_ofWords_of_lt _ hc h8, byteOf_packWord _ hr]

/-- InvShiftRows, byte by byte (R183). -/
theorem byteOf_invShiftRows {nb : Nat} (S : Block) {c r : Nat} (hc : c < nb) (h8 : c < 8) (hr : r < 8) :
    byteOf (Block.word (invShiftRows nb S) c) r = byteOf (Block.word S ((c + shiftAmount nb r) % nb)) r := by
  unfold invShiftRows
  rw [word_ofWords_of_lt _ hc h8, byteOf_packWord _ hr]

/-- The column product, byte by byte (R205). -/
theorem byteOf_colmul (M : ByteMatrix) (w : Word) {r : Nat} (hr : r < 8) :
    byteOf (colmul M w) r = xorBytes fun k => gmul (M.entry r k) (byteOf w k) := by
  unfold colmul
  rw [byteOf_packWord _ hr]

theorem word_mixColumns (p : Params) {nb : Nat} (S : Block) {c : Nat} (hc : c < nb) (h8 : c < 8) :
    Block.word (mixColumns p nb S) c = colmul p.mds (Block.word S c) :=
  word_ofWords_of_lt _ hc h8

theorem word_invMixColumns (p : Params) {nb : Nat} (S : Block) {c : Nat} (hc : c < nb) (h8 : c < 8) :
    Block.word (invMixColumns p nb S) c = colmul p.mdsInv (Block.word S c) :=
  word_ofWords_of_lt _ hc h8

theorem word_addKey {nb : Nat} (S K : Block) {i : Nat} (h : i < nb) (h8 : i < 8) :
    Block.word (addKey nb S K) i = Block.word S i + Block.word K i :=
  word_ofWords_of_lt _ h h8

theorem word_subKey {nb : Nat} (S K : Block) {i : Nat} (h : i < nb) (h8 : i < 8) :
    Block.word (subKey nb S K) i = Block.word S i - Block.word K i :=
  word_ofWords_of_lt _ h h8

theorem word_xorKey {nb : Nat} (S K : Block) {i : Nat} (h : i < nb) (h8 : i < 8) :
    Block.word (xorKey nb S K) i = Block.word S i ^^^ Block.word K i :=
  word_ofWords_of_lt _ h h8

/-- The words of two blocks below n are the same. -/
def AgreeBelow (n : Nat) (S T : Block) : Prop := ∀ i < n, Block.word S i = Block.word T i

theorem AgreeBelow.rfl' {n : Nat} (S : Block) : AgreeBelow n S S := fun _ _ => rfl

theorem AgreeBelow.symm' {n : Nat} {S T : Block} (h : AgreeBelow n S T) : AgreeBelow n T S :=
  fun i hi => (h i hi).symm

/-- What is written to STATE[0..n-1] is what is read there. -/
theorem agreeBelow_merge (n : Nat) (new old : Block) : AgreeBelow n (Block.merge n new old) new := by
  intro i hi
  rw [Block.word_merge, if_pos hi]

theorem subBytes_congr (p : Params) {nb : Nat} {S T : Block} (h : AgreeBelow nb S T) :
    subBytes p nb S = subBytes p nb T :=
  ofWords_congr fun i hi _ => by rw [h i hi]

theorem invSubBytes_congr (p : Params) {nb : Nat} {S T : Block} (h : AgreeBelow nb S T) :
    invSubBytes p nb S = invSubBytes p nb T :=
  ofWords_congr fun i hi _ => by rw [h i hi]

theorem shiftRows_congr {nb : Nat} {S T : Block} (h : AgreeBelow nb S T) : shiftRows nb S = shiftRows nb T :=
  ofWords_congr fun i hi _ => packWord_congr fun r _ => by rw [h _ (Nat.mod_lt _ (by omega))]

theorem invShiftRows_congr {nb : Nat} {S T : Block} (h : AgreeBelow nb S T) :
    invShiftRows nb S = invShiftRows nb T :=
  ofWords_congr fun i hi _ => packWord_congr fun r _ => by rw [h _ (Nat.mod_lt _ (by omega))]

theorem mixColumns_congr (p : Params) {nb : Nat} {S T : Block} (h : AgreeBelow nb S T) :
    mixColumns p nb S = mixColumns p nb T :=
  ofWords_congr fun i hi _ => by rw [h i hi]

theorem invMixColumns_congr (p : Params) {nb : Nat} {S T : Block} (h : AgreeBelow nb S T) :
    invMixColumns p nb S = invMixColumns p nb T :=
  ofWords_congr fun i hi _ => by rw [h i hi]

theorem addKey_congr {nb : Nat} {S T K L : Block} (h : AgreeBelow nb S T) (hk : AgreeBelow nb K L) :
    addKey nb S K = addKey nb T L :=
  ofWords_congr fun i hi _ => by rw [h i hi, hk i hi]

theorem subKey_congr {nb : Nat} {S T K L : Block} (h : AgreeBelow nb S T) (hk : AgreeBelow nb K L) :
    subKey nb S K = subKey nb T L :=
  ofWords_congr fun i hi _ => by rw [h i hi, hk i hi]

theorem xorKey_congr {nb : Nat} {S T K L : Block} (h : AgreeBelow nb S T) (hk : AgreeBelow nb K L) :
    xorKey nb S K = xorKey nb T L :=
  ofWords_congr fun i hi _ => by rw [h i hi, hk i hi]

theorem window_congr {n : Nat} {S T : Block} (h : AgreeBelow n S T) : window n 0 S = window n 0 T :=
  ofWords_congr fun i hi _ => by rw [Nat.zero_add, h i hi]

theorem encRound_congr (p : Params) {nb : Nat} {S T : Block} (h : AgreeBelow nb S T) :
    encRound p nb S = encRound p nb T := by
  unfold encRound
  rw [subBytes_congr p h]

theorem decRound_congr (p : Params) {nb : Nat} {S T : Block} (h : AgreeBelow nb S T) :
    decRound p nb S = decRound p nb T := by
  unfold decRound
  rw [invMixColumns_congr p h]

end Sys2Proof.Machine
end

