-- ==== Sys2Proof/Laws/KeySchedule.lean ====
section
/-!
SUPPORT. What the loops of the key schedule write of the round-key file, and what they read of it: nothing
but the even keys they have written themselves.
-/

namespace Sys2Proof.Machine

/-- Word i of RK[j]. -/
abbrev rkWord (rk : RkFile) (j i : Nat) : Word := Block.word (RkFile.block rk j) i

@[simp] theorem evenStep_kt (p : Params) (nb idx lo : Nat) (k : Sched) :
    (evenStep p nb idx lo k).kt = k.kt := rfl
@[simp] theorem evenStep_tmv (p : Params) (nb idx lo : Nat) (k : Sched) :
    (evenStep p nb idx lo k).tmv = k.tmv := rfl
@[simp] theorem evenStep_initialData (p : Params) (nb idx lo : Nat) (k : Sched) :
    (evenStep p nb idx lo k).initialData = k.initialData := rfl
@[simp] theorem evenStep_k0 (p : Params) (nb idx lo : Nat) (k : Sched) :
    (evenStep p nb idx lo k).k0 = k.k0 := rfl
@[simp] theorem evenStep_k1 (p : Params) (nb idx lo : Nat) (k : Sched) :
    (evenStep p nb idx lo k).k1 = k.k1 := rfl

/-- An even step writes the words below nb of RK[idx] and no other word of the file (R284). -/
theorem rkWord_evenStep (p : Params) (nb idx lo : Nat) (k : Sched) (j i : Nat) :
    rkWord (evenStep p nb idx lo k).rk j i =
      if j = idx ∧ idx < 19 ∧ i < nb then Block.word (evenStep p nb idx lo k).state i
      else rkWord k.rk j i :=
  RkFile.word_write nb k.rk idx _ j i

/-- Two sets of key-schedule registers that differ in the round-key file alone. -/
def SameRegs (k k' : Sched) : Prop :=
  k'.state = k.state ∧ k'.kt = k.kt ∧ k'.tmv = k.tmv ∧ k'.ktRound = k.ktRound ∧
    k'.initialData = k.initialData ∧ k'.k0 = k.k0 ∧ k'.k1 = k.k1

/-- The round-key file an even step starts from does not change what it does to the other registers. -/
theorem SameRegs.evenStep {k k' : Sched} (h : SameRegs k k') (p : Params) (nb idx lo : Nat) :
    SameRegs (evenStep p nb idx lo k) (evenStep p nb idx lo k') := by
  obtain ⟨-, hkt, htmv, -, hd, h0, h1⟩ := h
  simp [SameRegs, Machine.evenStep, hkt, htmv, hd, h0, h1]

theorem SameRegs.shiftTmv {k k' : Sched} (h : SameRegs k k') (nb : Nat) :
    SameRegs { k with tmv := shiftTmv nb k.tmv } { k' with tmv := shiftTmv nb k'.tmv } := by
  obtain ⟨hs, hkt, htmv, hr, hd, h0, h1⟩ := h
  exact ⟨hs, hkt, by rw [htmv], hr, hd, h0, h1⟩

theorem SameRegs.rotateKey {k k' : Sched} (h : SameRegs k k') (ks : KsRotation) (nb nk : Nat) :
    SameRegs { k with initialData := rotateKey ks nb nk k.initialData }
      { k' with initialData := rotateKey ks nb nk k'.initialData } := by
  obtain ⟨hs, hkt, htmv, hr, hd, h0, h1⟩ := h
  exact ⟨hs, hkt, htmv, hr, by rw [hd], h0, h1⟩

/-- The even loop leaves every word outside RK[idx..nr][0..nb-1] as it was (R35, R284). -/
theorem evenLoop_frame (p : Params) {nb nk nr : Nat} (hnr : nr % 2 = 0) {j i : Nat} (h : nr < j ∨ nb ≤ i) :
    ∀ (n idx : Nat) (k : Sched), idx % 2 = 0 → idx ≤ nr →
      rkWord (evenLoop p nb nk nr n idx k).rk j i = rkWord k.rk j i := by
  intro n
  induction n with
  | zero => intros; rfl
  | succ n ih =>
    intro idx k he hle
    have step : ∀ idx lo (k : Sched), idx ≤ nr →
        rkWord (evenStep p nb idx lo k).rk j i = rkWord k.rk j i := by
      intro idx lo k hle
      rw [rkWord_evenStep, if_neg (by omega)]
    simp only [evenLoop]
    split
    · exact step _ _ _ hle
    · split
      · rw [ih _ _ (by omega) (by omega)]
        exact step _ _ _ hle
      · split
        · exact (step _ _ _ (by omega)).trans (step _ _ _ hle)
        · rw [ih _ _ (by omega) (by omega)]
          exact (step _ _ _ (by omega)).trans (step _ _ _ hle)

/-- Two even loops that start from different round-key files end with the same other registers. -/
theorem SameRegs.evenLoop (p : Params) (nb nk nr : Nat) :
    ∀ (n idx : Nat) (k k' : Sched), SameRegs k k' →
      SameRegs (evenLoop p nb nk nr n idx k) (evenLoop p nb nk nr n idx k') := by
  intro n
  induction n with
  | zero => exact fun _ _ _ h => h
  | succ n ih =>
    intro idx k k' h
    have h1 := h.evenStep p nb idx 0
    have h2 := (h1.shiftTmv nb).evenStep p nb (idx + 2) nb
    rw [Machine.evenLoop, Machine.evenLoop]
    split
    · exact h1
    · split
      · exact ih _ _ _ ((h1.shiftTmv nb).rotateKey _ nb nk)
      · split
        · exact h2
        · exact ih _ _ _ ((h2.shiftTmv nb).rotateKey _ nb nk)

/-- Where two round-key files agree before an even step, and on the key it writes, they agree after it. -/
theorem evenStep_congr (p : Params) {nb idx : Nat} (lo : Nat) {k k' : Sched} (hs : SameRegs k k') {j i : Nat}
    (hi : idx < 19) (h : rkWord k'.rk j i = rkWord k.rk j i ∨ (j = idx ∧ i < nb)) :
    rkWord (evenStep p nb idx lo k').rk j i = rkWord (evenStep p nb idx lo k).rk j i := by
  rw [rkWord_evenStep, rkWord_evenStep, (hs.evenStep p nb idx lo).1]
  split
  · rfl
  · rcases h with h | h
    · exact h
    · omega

/-- Where two round-key files agree, and on every even key the loop writes, they agree after it (R284). -/
theorem evenLoop_congr (p : Params) {nb nk nr : Nat} (hnr : nr % 2 = 0) (h19 : nr < 19) {j i : Nat} :
    ∀ (n idx : Nat) (k k' : Sched), SameRegs k k' → idx % 2 = 0 → idx ≤ nr → nr < idx + 2 * n →
      (rkWord k'.rk j i = rkWord k.rk j i ∨ (j % 2 = 0 ∧ idx ≤ j ∧ j ≤ nr ∧ i < nb)) →
      rkWord (evenLoop p nb nk nr n idx k').rk j i = rkWord (evenLoop p nb nk nr n idx k).rk j i := by
  intro n
  induction n with
  | zero => intro idx k k' _ _ _ _; omega
  | succ n ih =>
    intro idx k k' hs he hle hf h
    have h1 := hs.evenStep p nb idx 0
    have h2 := (h1.shiftTmv nb).evenStep p nb (idx + 2) nb
    have first : rkWord (evenStep p nb idx 0 k').rk j i = rkWord (evenStep p nb idx 0 k).rk j i ∨
        (j % 2 = 0 ∧ idx + 2 ≤ j ∧ j ≤ nr ∧ i < nb) := by
      by_cases hj : j = idx ∧ i < nb
      · exact .inl (evenStep_congr p 0 hs (by omega) (.inr hj))
      · rcases h with h | h
        · exact .inl (evenStep_congr p 0 hs (by omega) (.inl h))
        · exact .inr (by omega)
    have second := fun hlt h => evenStep_congr p (nb := nb) (idx := idx + 2) nb (h1.shiftTmv nb) (j := j) (i := i) hlt h
    rw [Machine.evenLoop, Machine.evenLoop]
    split
    · exact evenStep_congr p 0 hs (by omega) (h.imp_right fun h => by omega)
    · split
      · exact ih _ _ _ ((h1.shiftTmv nb).rotateKey _ nb nk) (by omega) (by omega) (by omega) first
      · have third : rkWord (evenStep p nb (idx + 2) nb
              { evenStep p nb idx 0 k' with tmv := shiftTmv nb (evenStep p nb idx 0 k').tmv }).rk j i =
            rkWord (evenStep p nb (idx + 2) nb
              { evenStep p nb idx 0 k with tmv := shiftTmv nb (evenStep p nb idx 0 k).tmv }).rk j i ∨
            (j % 2 = 0 ∧ idx + 4 ≤ j ∧ j ≤ nr ∧ i < nb) := by
          by_cases hj : j = idx + 2 ∧ i < nb
          · exact .inl (second (by omega) (.inr hj))
          · rcases first with h | h
            · exact .inl (second (by omega) (.inl h))
            · exact .inr (by omega)
        split
        · exact third.elim id (fun h => by omega)
        · exact ih _ _ _ ((h2.shiftTmv nb).rotateKey _ nb nk) (by omega) (by omega) (by omega) third

/-- Bytes below 8·nb of a block are bytes of its words below nb (R11). -/
theorem byte_congr {n : Nat} {S T : Block} (h : AgreeBelow n S T) {k : Nat} (hk : k < 8 * n) :
    Block.byte S k = Block.byte T k := by
  unfold Block.byte
  rw [h _ (by omega)]

theorem rotBytes_congr {nb : Nat} (n : Nat) {S T : Block} (h : AgreeBelow nb S T) :
    rotBytes nb n S = rotBytes nb n T := by
  unfold rotBytes Block.ofBytes
  refine ofWords_congr fun i hi _ => packWord_congr fun j _ => byte_congr h (Nat.mod_lt _ (by omega))

/-- The odd loop leaves every word outside the odd keys RK[i..i+2n-2][0..nb-1] as it was (R287). -/
theorem oddLoop_frame {nb j l : Nat} :
    ∀ (n i : Nat) (rk : RkFile), (nb ≤ l ∨ j < i ∨ i + 2 * n ≤ j + 1 ∨ j % 2 ≠ i % 2) →
      rkWord (oddLoop nb n i rk) j l = rkWord rk j l := by
  intro n
  induction n with
  | zero => intros; rfl
  | succ n ih =>
    intro i rk h
    rw [oddLoop, ih (i + 2) _ (by omega), rkWord, RkFile.word_write, if_neg (by omega)]

/-- Two odd loops over files whose even keys agree, on words below nb, leave the same odd keys (R287). -/
theorem oddLoop_congr {nb : Nat} {j l : Nat} (hl : l < nb) :
    ∀ (n i : Nat) (rk rk' : RkFile), i % 2 = 1 → i + 2 * n ≤ 20 →
      (∀ m, m % 2 = 0 → m + 1 < i + 2 * n → AgreeBelow nb (RkFile.block rk m) (RkFile.block rk' m)) →
      (rkWord rk j l = rkWord rk' j l ∨ (j % 2 = 1 ∧ i ≤ j ∧ j < i + 2 * n)) →
      rkWord (oddLoop nb n i rk) j l = rkWord (oddLoop nb n i rk') j l := by
  intro n
  induction n with
  | zero =>
    intro i rk rk' _ _ _ h
    rcases h with h | h
    · exact h
    · omega
  | succ n ih =>
    intro i rk rk' hi h20 he h
    rw [oddLoop, oddLoop]
    refine ih (i + 2) _ _ (by omega) (by omega) ?_ ?_
    · intro m hm hlt w hw
      rw [RkFile.word_write, RkFile.word_write, if_neg (by omega), if_neg (by omega)]
      exact he m hm (by omega) w hw
    · by_cases hj : j = i
      · refine .inl ?_
        rw [rkWord, rkWord, RkFile.word_write, RkFile.word_write, if_pos (by omega), if_pos (by omega),
          rotBytes_congr _ (he (i - 1) (by omega) (by omega))]
      · rcases h with h | h
        · refine .inl ?_
          rw [rkWord, rkWord, RkFile.word_write, RkFile.word_write, if_neg (by omega), if_neg (by omega)]
          exact h
        · exact .inr (by omega)

/-- The registers stage 2 starts from (R282, R284). -/
def stageTwoStart (p : Params) (nb nk : Nat) (key : Block) (rk : RkFile) : Sched :=
  { state := ktDerive p nb nk key, kt := ktDerive p nb nk key, tmv := tmvInit nb, ktRound := zeroBlock,
    initialData := window nk 0 key, k0 := window nb 0 key, k1 := secondHalf nb nk key, rk := rk }

theorem keySchedule_eq (p : Params) (nb nk nr : Nat) (key : Block) (rk : RkFile) :
    keySchedule p nb nk nr key rk =
      { evenLoop p nb nk nr 10 0 (stageTwoStart p nb nk key rk) with
        rk := oddLoop nb (nr / 2) 1 (evenLoop p nb nk nr 10 0 (stageTwoStart p nb nk key rk)).rk } := rfl

theorem sameRegs_stageTwoStart (p : Params) (nb nk : Nat) (key : Block) (rk rk' : RkFile) :
    SameRegs (stageTwoStart p nb nk key rk) (stageTwoStart p nb nk key rk') :=
  ⟨rfl, rfl, rfl, rfl, rfl, rfl, rfl⟩

/-- The key schedule leaves every word outside RK[0..nr][0..nb-1] as it was (R35, R281). -/
theorem keySchedule_frame (p : Params) {nb nk nr : Nat} (hnr : nr % 2 = 0) (key : Block) (rk : RkFile)
    {j i : Nat} (h : nr < j ∨ nb ≤ i) : rkWord (keySchedule p nb nk nr key rk).rk j i = rkWord rk j i := by
  rw [keySchedule_eq]
  exact (oddLoop_frame _ _ _ (by omega)).trans (evenLoop_frame p hnr h _ _ _ rfl (by omega))

/-- What the key schedule writes does not depend on what the round-key file held (R290, R291). -/
theorem keySchedule_congr (p : Params) {nb nk nr : Nat} (hnr : nr % 2 = 0) (h19 : nr < 19) (key : Block)
    (rk rk' : RkFile) {j i : Nat} (hj : j ≤ nr) (hi : i < nb) :
    rkWord (keySchedule p nb nk nr key rk).rk j i = rkWord (keySchedule p nb nk nr key rk').rk j i := by
  have even : ∀ {m w : Nat}, m % 2 = 0 → m ≤ nr → w < nb →
      rkWord (evenLoop p nb nk nr 10 0 (stageTwoStart p nb nk key rk)).rk m w =
        rkWord (evenLoop p nb nk nr 10 0 (stageTwoStart p nb nk key rk')).rk m w :=
    fun he hm hw => evenLoop_congr p hnr h19 10 0 _ _ (sameRegs_stageTwoStart p nb nk key rk' rk) rfl
      (by omega) (by omega) (.inr ⟨he, by omega, hm, hw⟩)
  rw [keySchedule_eq, keySchedule_eq]
  refine oddLoop_congr hi _ 1 _ _ rfl (by omega) (fun m hm hlt w hw => even hm (by omega) hw) ?_
  rcases Nat.mod_two_eq_zero_or_one j with h | h
  · exact .inl (even h hj hi)
  · exact .inr (by omega)

/-- The other registers the key schedule leaves do not depend on the round-key file either. -/
theorem sameRegs_keySchedule (p : Params) (nb nk nr : Nat) (key : Block) (rk rk' : RkFile) :
    SameRegs (keySchedule p nb nk nr key rk) (keySchedule p nb nk nr key rk') :=
  SameRegs.evenLoop p nb nk nr 10 0 _ _ (sameRegs_stageTwoStart p nb nk key rk rk')

/-- The round count of a configuration is even and at most 18 (R6). -/
theorem rounds_even (t : NrTable) (cf : Conf) : t.rounds cf % 2 = 0 ∧ 0 < t.rounds cf ∧ t.rounds cf < 19 := by
  have h : ∀ r : Rounds, r.toNat % 2 = 0 ∧ 0 < r.toNat ∧ r.toNat < 19 := by
    intro r
    cases r <;> decide
  cases cf <;> exact h _

/-- The facts a configured state gives its readers (R6, R33). -/
theorem configured_cases {s : State} (h : s.Configured) :
    (s.cols = 2 ∨ s.cols = 4 ∨ s.cols = 8) ∧ (s.nk.toNat = s.cols ∨ s.nk.toNat = 2 * s.cols) ∧
      s.nk.toNat ≤ 8 ∧ s.nr.toNat % 2 = 0 ∧ 0 < s.nr.toNat ∧ s.nr.toNat < 19 := by
  obtain ⟨cf, hnb, hnk, hnr⟩ := h
  have hr := rounds_even s.params.nrTable cf
  rw [State.cols, hnb, hnk, hnr]
  refine ⟨?_, ?_, ?_, hr.1, hr.2.1, hr.2.2⟩ <;> cases cf <;> decide

end Sys2Proof.Machine
end

