-- ==== Sys2Proof/Laws/PerInstr.lean ====
section
/-!
SUPPORT. Statements about every command as syntax, one lemma for each constructor. `Operands`: the operand
fields of the encoded word, read back as R111 reads them, are the command.
-/

namespace Sys2Proof.Laws.Operands

/-- The encoding of a well-formed command holds its operands where R111 reads them. -/
def Statement (i : Instr) : Prop := i.wf = true → i.op.operands (encode i) = i

theorem init (blk keyb : Nat) : Statement (.init blk keyb) := by
  intro h
  have he := toNat_encode h
  simp only [Instr.wf, Bool.and_eq_true, decide_eq_true_eq] at h
  simp only [Instr.op, Op.operands, field_eq, he, Op.code, Instr.fields, Instr.init.injEq]
  omega

theorem teardown : Statement .teardown := fun _ => rfl
theorem keyExpand : Statement .keyExpand := fun _ => rfl
theorem encipher : Statement .encipher := fun _ => rfl
theorem decipher : Statement .decipher := fun _ => rfl
theorem loadState : Statement .loadState := fun _ => rfl
theorem subBytes : Statement .subBytes := fun _ => rfl
theorem invSubBytes : Statement .invSubBytes := fun _ => rfl
theorem shiftRows : Statement .shiftRows := fun _ => rfl
theorem invShiftRows : Statement .invShiftRows := fun _ => rfl
theorem mixColumns : Statement .mixColumns := fun _ => rfl
theorem invMixColumns : Statement .invMixColumns := fun _ => rfl
theorem encRound : Statement .encRound := fun _ => rfl
theorem decRound : Statement .decRound := fun _ => rfl

theorem addRk (j : Nat) : Statement (.addRk j) := by
  intro h
  have he := toNat_encode h
  simp only [Instr.wf, decide_eq_true_eq] at h
  simp only [Instr.op, Op.operands, field_eq, he, Op.code, Instr.fields, Instr.addRk.injEq]
  omega

theorem subRk (j : Nat) : Statement (.subRk j) := by
  intro h
  have he := toNat_encode h
  simp only [Instr.wf, decide_eq_true_eq] at h
  simp only [Instr.op, Op.operands, field_eq, he, Op.code, Instr.fields, Instr.subRk.injEq]
  omega

theorem xorRk (j : Nat) : Statement (.xorRk j) := by
  intro h
  have he := toNat_encode h
  simp only [Instr.wf, decide_eq_true_eq] at h
  simp only [Instr.op, Op.operands, field_eq, he, Op.code, Instr.fields, Instr.xorRk.injEq]
  omega

theorem addDin : Statement .addDin := fun _ => rfl
theorem xorDin : Statement .xorDin := fun _ => rfl

theorem gfMul (a b : Nat) : Statement (.gfMul a b) := by
  intro h
  have he := toNat_encode h
  simp only [Instr.wf, Bool.and_eq_true, decide_eq_true_eq] at h
  simp only [Instr.op, Op.operands, field_eq, he, Op.code, Instr.fields, Instr.gfMul.injEq]
  omega

theorem sbox (t x : Nat) : Statement (.sbox t x) := by
  intro h
  have he := toNat_encode h
  simp only [Instr.wf, Bool.and_eq_true, decide_eq_true_eq] at h
  simp only [Instr.op, Op.operands, field_eq, he, Op.code, Instr.fields, Instr.sbox.injEq]
  omega

theorem invSbox (t x : Nat) : Statement (.invSbox t x) := by
  intro h
  have he := toNat_encode h
  simp only [Instr.wf, Bool.and_eq_true, decide_eq_true_eq] at h
  simp only [Instr.op, Op.operands, field_eq, he, Op.code, Instr.fields, Instr.invSbox.injEq]
  omega

end Sys2Proof.Laws.Operands
end

