-- ==== Sys2Proof/Laws/Run.lean ====
section
/-!
SUPPORT. Runs of several steps, one step at a time, and the engine's part of a cycle with no command
running.
-/

namespace Sys2Proof.Machine

/-- With no command running the engine does nothing. -/
theorem tick_none {s : State} (h : s.running = none) : tick s = .next s := by
  unfold tick
  rw [h]

theorem core_run_zero (s : State) : Sys2Proof.core.run 0 s = .next s := rfl

/-- A run whose first step answers a next state is the run from there. -/
theorem core_run_succ {s t : State} (k : Nat) (h : step s = .next t) :
    Sys2Proof.core.run (k + 1) s = Sys2Proof.core.run k t := by
  have h' : Sys2Proof.core.step s = .next t := h
  refine (Host.Core.run.eq_2 Sys2Proof.core s k).trans ?_
  rw [h']

/-- A run of a + 1 steps that answers a next state starts with a step that does. -/
theorem step_of_core_run {s t : State} (k : Nat) (h : Sys2Proof.core.run (k + 1) s = .next t) :
    ∃ u : State, step s = .next u ∧ Sys2Proof.core.run k u = .next t := by
  have e := Host.Core.run.eq_2 Sys2Proof.core s k
  cases hs : step s with
  | next u => exact ⟨u, rfl, (core_run_succ k hs).symm.trans h⟩
  | fault r =>
    have h' : Sys2Proof.core.step s = .fault r := hs
    rw [h'] at e
    cases e.symm.trans h
  | refused r =>
    have h' : Sys2Proof.core.step s = .refused r := hs
    rw [h'] at e
    cases e.symm.trans h

/-- Runs compose. -/
theorem core_run_add (a b : Nat) {s t : State} (h : Sys2Proof.core.run a s = .next t) :
    Sys2Proof.core.run (a + b) s = Sys2Proof.core.run b t := by
  induction a generalizing s with
  | zero =>
    cases h
    rw [Nat.zero_add]
  | succ a ih =>
    obtain ⟨u, hs, hu⟩ := step_of_core_run a h
    rw [show a + 1 + b = a + b + 1 by omega, core_run_succ _ hs]
    exact ih hu

end Sys2Proof.Machine
end

