-- ==== Sys2Proof/Tests/Slice0.lean ====
section
/-!
SUPPORT. Tests of the model on single steps, with results from the spec's own tables (95_test_vectors.md, R115)
or worked by hand from its rules, and for every statement with hypotheses a witness that meets them.
-/

namespace Sys2Proof.Tests

open Sys2Proof.Machine Sys2Proof.Claims

/-! ## Helpers -/

/-- The next state, if there is one. -/
def after : Result → Option State
  | .next s => some s
  | .fault _ => none
  | .refused _ => none

/-- The first n words of STATE after a step. -/
def words (n : Nat) (r : Result) : Option (List Word) := (after r).map fun s => s.state.toList.take n

/-- STATUS, CONFIG and SOUT after a step. -/
def status (r : Result) : Option Word := (after r).map fun s => s.statusWord
def config (r : Result) : Option Word := (after r).map fun s => s.configWord
def soutOf (r : Result) : Option Word := (after r).map fun s => s.sout

/-- Reset with tables that change nothing. -/
def base : State := { State.reset with params := Params.plain }

/-- CREATED in a configuration, with STATE holding the words given. -/
def created (nb nk nr : Byte) (ws : Block) : State :=
  { base with lc := .created, nb := nb, nk := nk, nr := nr, state := ws }

/-- The identity state of L2.4: byte k of the serialization is k. -/
def ident (nb : Nat) : Block := Block.ofBytes nb fun k => BitVec.ofNat 8 k

/-- KEY_EXPANDED at 128/128 with the same word in every place of the round-key file. -/
def keyed (ws : Block) (k0 k1 : Word) : State :=
  { created 2 2 10 ws with
    lc := .keyExpanded, rk := Vector.replicate 19 (Block.ofWords 2 fun i => if i = 0 then k0 else k1) }

/-- A block with word 0 and word 1 given. -/
def two (a b : Word) : Block := Block.ofWords 2 fun i => if i = 0 then a else b

/-- Tables with SBOX[t][x] = x + 16·t, all modulo 256. -/
def shifted : Params :=
  { Params.plain with
    sbox := Vector.ofFn fun t => Vector.ofFn fun x => BitVec.ofFin x + BitVec.ofNat 8 (16 * t.val)
    invSbox := Vector.ofFn fun t => Vector.ofFn fun x => BitVec.ofFin x - BitVec.ofNat 8 (16 * t.val) }

/-! ## Well-formedness: each check refuses a term (R112) -/

theorem test_wf_init_blk : (Instr.init 65536 128).wf = false := by decide
theorem test_wf_init_keyb : (Instr.init 128 65536).wf = false := by decide
theorem test_wf_addRk : (Instr.addRk 256).wf = false := by decide
theorem test_wf_subRk : (Instr.subRk 256).wf = false := by decide
theorem test_wf_xorRk : (Instr.xorRk 256).wf = false := by decide
theorem test_wf_gfMul_a : (Instr.gfMul 256 0).wf = false := by decide
theorem test_wf_gfMul_b : (Instr.gfMul 0 256).wf = false := by decide
theorem test_wf_sbox_t : (Instr.sbox 4 0).wf = false := by decide
theorem test_wf_sbox_x : (Instr.sbox 0 256).wf = false := by decide
theorem test_wf_invSbox_t : (Instr.invSbox 4 0).wf = false := by decide
theorem test_wf_invSbox_x : (Instr.invSbox 0 256).wf = false := by decide

/-! ## Decoding: a word of every command, from R115, L2 and the formats R102 to R106 -/

theorem test_decode_init : decode 0x0200010000000001 = .ok (.init 256 512) := by rfl
theorem test_decode_teardown : decode 0x0000000000000002 = .ok .teardown := by rfl
theorem test_decode_keyExpand : decode 0x0000000000000003 = .ok .keyExpand := by rfl
theorem test_decode_encipher : decode 0x0000000000000004 = .ok .encipher := by rfl
theorem test_decode_decipher : decode 0x0000000000000005 = .ok .decipher := by rfl
theorem test_decode_loadState : decode 0x0000000000000010 = .ok .loadState := by rfl
theorem test_decode_subBytes : decode 0x0000000000000011 = .ok .subBytes := by rfl
theorem test_decode_invSubBytes : decode 0x0000000000000012 = .ok .invSubBytes := by rfl
theorem test_decode_shiftRows : decode 0x0000000000000013 = .ok .shiftRows := by rfl
theorem test_decode_invShiftRows : decode 0x0000000000000014 = .ok .invShiftRows := by rfl
theorem test_decode_mixColumns : decode 0x0000000000000015 = .ok .mixColumns := by rfl
theorem test_decode_invMixColumns : decode 0x0000000000000016 = .ok .invMixColumns := by rfl
theorem test_decode_encRound : decode 0x0000000000000017 = .ok .encRound := by rfl
theorem test_decode_decRound : decode 0x0000000000000018 = .ok .decRound := by rfl
theorem test_decode_addRk : decode 0x0000000000000A20 = .ok (.addRk 10) := by rfl
theorem test_decode_subRk : decode 0x000000000000FF21 = .ok (.subRk 255) := by rfl
theorem test_decode_xorRk : decode 0x0000000000000322 = .ok (.xorRk 3) := by rfl
theorem test_decode_addDin : decode 0x0000000000000023 = .ok .addDin := by rfl
theorem test_decode_xorDin : decode 0x0000000000000024 = .ok .xorDin := by rfl
theorem test_decode_gfMul : decode 0x00000000ADCA0030 = .ok (.gfMul 0xCA 0xAD) := by rfl
theorem test_decode_sbox : decode 0x0000000000FF0331 = .ok (.sbox 3 0xFF) := by rfl
theorem test_decode_invSbox : decode 0x0000000000310132 = .ok (.invSbox 1 0x31) := by rfl
theorem test_decode_table_word : decodeTableWord 64 0x0000000000000A20 = some (.addRk 10) := by rfl

/-- L2.1 to L2.6: a reserved bit of each format, and reserved opcodes. -/
theorem test_decode_refused :
    decode 0x0080008000000101 = .error .reservedBit ∧ decode 0x8000000000000002 = .error .reservedBit ∧
    decode 0x0000000083570130 = .error .reservedBit ∧ decode 0x00000000001F0631 = .error .reservedBit ∧
    decode 0x0000000000010322 = .error .reservedBit ∧ decode 0x0000000000000000 = .error .reservedOpcode ∧
    decode 0x0000000000000006 = .error .reservedOpcode ∧ decode 0x00000000000000FF = .error .reservedOpcode := by
  refine ⟨?_, ?_, ?_, ?_, ?_, ?_, ?_, ?_⟩ <;> rfl

/-! ## Lifecycle (L2.1, L2.10) -/

theorem test_init : config (exec (.init 256 512) base) = some 0x0200010000120804 := by decide
theorem test_init_small_sizes : status (exec (.init 2 2) base) = some 0x0000000000000102 := by decide
theorem test_teardown : config (exec .teardown (keyed (ident 2) 1 2)) = some 0 := by decide
theorem test_teardown_zeroes :
    ((after (exec .teardown (keyed (ident 2) 1 2))).map fun s =>
      (s.lc, s.nr, s.state, RkFile.block s.rk 10)) = some (.none, 0, zeroBlock, zeroBlock) := by decide

/-! ## GFMUL (L2.2) -/

theorem test_gfMul : soutOf (exec (.gfMul 0xCA 0xAD) base) = some 0x5E := by decide
theorem test_gfMul_inverse : soutOf (exec (.gfMul 0x53 0x8C) base) = some 0x01 := by decide

/-! ## SBSEL (L2.3, R161) -/

theorem test_sbox : soutOf (exec (.sbox 2 0x1F) { base with params := shifted }) = some 0x3F := by decide +kernel
theorem test_invSbox : soutOf (exec (.invSbox 3 0x31) { base with params := shifted }) = some 0x01 := by decide +kernel
theorem test_subBytes :
    words 2 (exec .subBytes { created 2 2 10 (ident 2) with params := shifted }) =
      some [0x3726150433221100, 0x3F2E1D0C3B2A1908] := by decide +kernel
theorem test_invSubBytes :
    words 2 (exec .invSubBytes
      { created 2 2 10 (two 0x3726150433221100 0x3F2E1D0C3B2A1908) with params := shifted }) =
      some [0x0706050403020100, 0x0F0E0D0C0B0A0908] := by decide +kernel
theorem test_subBytes_none : status (exec .subBytes base) = some 0x0000000000000202 := by decide

/-! ## REWIRE (L2.4) -/

theorem test_shiftRows :
    words 4 (exec .shiftRows (created 4 4 14 (ident 4))) =
      some [0x0F0E15141B1A0100, 0x17161D1C03020908, 0x1F1E05040B0A1110, 0x07060D0C13121918] := by decide
theorem test_shiftRows_eight :
    words 8 (exec .shiftRows (created 8 8 18 (ident 8))) =
      some [0x0F161D242B323900, 0x171E252C333A0108, 0x1F262D343B020910, 0x272E353C030A1118,
        0x2F363D040B121920, 0x373E050C131A2128, 0x3F060D141B222930, 0x070E151C232A3138] := by decide
theorem test_invShiftRows :
    words 4 (exec .invShiftRows (created 4 4 14 (ident 4))) =
      some [0x1F1E15140B0A0100, 0x07061D1C13120908, 0x0F0E05041B1A1110, 0x17160D0C03021918] := by decide
theorem test_invShiftRows_two :
    words 3 (exec .invShiftRows (created 2 2 10 (ident 2))) =
      some [0x0F0E0D0C03020100, 0x070605040B0A0908, 0] := by decide

/-! ## MDSMUL (L2.5) -/

theorem test_mixColumns :
    words 3 (exec .mixColumns (created 2 2 10 (ident 2))) =
      some [0x0312051C27362138, 0x4B5A4D546F7E6970, 0] := by decide
theorem test_invMixColumns :
    words 3 (exec .invMixColumns (created 2 2 10 (ident 2))) =
      some [0x3D96F39A73D8BDD4, 0xA10A6F06EF442148, 0] := by decide
theorem test_mixColumns_top_byte :
    words 1 (exec .mixColumns (created 2 2 10 (two 0x8000000000000000 0))) = some [0x8080BA807427A73A] := by
  decide

/-! ## RKMIX (L2.6, P4) -/

theorem test_addRk_no_carry_across :
    words 2 (exec (.addRk 10) (keyed (two 0xFFFFFFFFFFFFFFFF 0) 1 0)) = some [0, 0] := by decide
theorem test_addRk_range : status (exec (.addRk 11) (keyed zeroBlock 0 0)) = some 0x000000000000040A := by decide
theorem test_subRk : words 2 (exec (.subRk 0) (keyed (two 0 5) 1 7)) =
    some [0xFFFFFFFFFFFFFFFF, 0xFFFFFFFFFFFFFFFE] := by decide
theorem test_subRk_range : status (exec (.subRk 255) (keyed zeroBlock 0 0)) = some 0x000000000000040A := by decide
theorem test_xorRk :
    words 2 (exec (.xorRk 3) (keyed (two 0x00FF00FF00FF00FF 0xFFFFFFFFFFFFFFFF) 0x0F0F0F0F0F0F0F0F
      0x0706050403020100)) = some [0x0FF00FF00FF00FF0, 0xF8F9FAFBFCFDFEFF] := by decide
/-- The lifecycle check comes before the range check (R346). -/
theorem test_addRk_lifecycle_first :
    status (exec (.xorRk 20) (created 2 2 10 zeroBlock)) = some 0x0000000000000206 := by decide
theorem test_loadState :
    words 3 (exec .loadState { created 2 2 10 zeroBlock with din := ident 8 }) =
      some [0x0706050403020100, 0x0F0E0D0C0B0A0908, 0] := by decide
theorem test_addDin :
    words 2 (exec .addDin
      { created 2 2 10 (two 0xFFFFFFFFFFFFFFFF 0x8000000000000000) with din := two 1 0x8000000000000001 }) =
      some [0, 1] := by decide
theorem test_xorDin :
    words 2 (exec .xorDin { created 2 2 10 (two 0 1) with din := two 1 0x8000000000000001 }) =
      some [1, 0x8000000000000000] := by decide

/-! ## ROUND (L2.7: the linear part, with tables that change nothing) -/

theorem test_encRound :
    words 2 (exec .encRound (created 2 2 10 (ident 2))) = some [0x230A0D3C4F666150, 0x6B424574072E2918] := by
  decide +kernel
theorem test_decRound :
    words 2 (exec .decRound (created 2 2 10 (two 0x230A0D3C4F666150 0x6B424574072E2918))) =
      some [0x0706050403020100, 0x0F0E0D0C0B0A0908] := by decide +kernel

/-! ## KSCHED and DRIVER (L2.8, L2.10, R282, R288) -/

theorem test_ktSeed : (ktSeed 4 8).toList.take 2 = [13, 0] := by decide
theorem test_rotBytes :
    (rotBytes 4 11 (ident 4)).toList.take 4 =
      [0x1211100F0E0D0C0B, 0x1A19181716151413, 0x0201001F1E1D1C1B, 0x0A09080706050403] := by decide
theorem test_keyExpand_none : status (exec .keyExpand base) = some 0x0000000000000202 := by decide
theorem test_encipher_created :
    status (exec .encipher (created 2 2 10 zeroBlock)) = some 0x0000000000000206 := by decide
theorem test_decipher_none : status (exec .decipher base) = some 0x0000000000000202 := by decide

/-! ## Host bus and BUSY (R41, R43, R75, L2.10) -/

/-- L2.10: a word with opcode 0x00 leaves STATUS = 0x302. -/
theorem test_illegal_command : status (runCommand 0 base) = some 0x0000000000000302 := by decide
/-- The word placed by `withFetchWord` is the first command after reset. -/
theorem test_fetch_word : soutOf (step (State.reset.withFetchWord 64 0x83570030)) = some 0x31 := by decide
/-- L2.10: a write to DIN[0] while BUSY sets PROTO_ERR and is dropped. -/
theorem test_busy_write :
    ((after (step { base with running := some ⟨3, 5⟩, pending := [.write 0x40 8 7] })).map fun s =>
      (s.statusWord, Block.word s.din 0, s.running)) = some (0x11, 0, some ⟨3, 4⟩) := by decide
theorem test_read_config :
    ((after (step { created 2 2 10 zeroBlock with pending := [.read 0x10 8] })).map fun s => s.got) =
      some [0x00800080000A0202] := by decide
theorem test_write_key : ((after (step { base with pending := [.write 0xB8 8 9] })).map fun s =>
    (Block.word s.key 7, s.readReg 23)) = some (9, 0) := by decide
theorem test_narrow_access : after (step { base with pending := [.read 0x08 4] }) = none := by decide

/-! ## The assembler (R112 to R115) -/

theorem test_parse_gfMul : parseLine "GF_MUL 0x57, 0x83".toList = some (.command (.gfMul 0x57 0x83)) := by decide
theorem test_parse_wr : parseLine "wr DIN[1], 0x8000000000000001".toList = some (.wr 9 0x8000000000000001) := by
  decide
theorem test_assemble_setKey :
    assemble 2 2 (.setKey [0x0706050403020100, 0x0F0E0D0C0B0A0908]) =
      some [.write 0x80 8 0x0706050403020100, .write 0x88 8 0x0F0E0D0C0B0A0908, .write 0 8 3, .poll] := by
  decide
theorem test_assemble_refuses : assemble 2 2 (.command (.sbox 4 0)) = none := by decide

/-! ## Witnesses: for every statement with hypotheses, a state and operands that meet them -/

/-- A legal configuration of a state. -/
theorem configured_created (ws : Block) : (created 2 2 10 ws).Configured := ⟨.b128k128, rfl, rfl, rfl⟩
theorem configured_four : (created 4 8 18 (ident 4)).Configured := ⟨.b256k512, rfl, rfl, rfl⟩
theorem configured_eight : (created 8 8 18 (ident 8)).Configured := ⟨.b512k512, rfl, rfl, rfl⟩
theorem configured_keyed (ws : Block) (a b : Word) : (keyed ws a b).Configured := ⟨.b128k128, rfl, rfl, rfl⟩

/-- Tables that change nothing meet R8, and the default matrices meet R9. -/
theorem plain_sboxOk : Params.plain.SboxOk := by
  intro t ht x
  simp [Params.sboxAt, Params.invSboxAt, Params.plain]

theorem default_mdsOk : Params.default.MdsOk := by
  unfold Params.MdsOk
  decide

theorem plain_ok : Params.plain.Ok := by
  refine ⟨plain_sboxOk, ?_⟩
  unfold Params.MdsOk
  decide

/-- A state that meets the hypotheses of SubstitutionCommands, ShiftRowsCommands, MixColumnsCommands,
DinCommands, KtIsStageOneByCommands and StateAfterKeyExpandIsLastKey, at each state width. -/
theorem witness_context_commands :
    (∃ s : State, s.lc ≠ .none ∧ s.Configured ∧ s.cols = 2) ∧
    (∃ s : State, s.lc ≠ .none ∧ s.Configured ∧ s.cols = 4) ∧
    (∃ s : State, s.lc ≠ .none ∧ s.Configured ∧ s.cols = 8) :=
  ⟨⟨created 2 2 10 (ident 2), by decide, configured_created _, by decide⟩,
    ⟨created 4 8 18 (ident 4), by decide, configured_four, by decide⟩,
    ⟨created 8 8 18 (ident 8), by decide, configured_eight, by decide⟩⟩

theorem witness_EncodedCommandDecodesBack :
    (Instr.init 65535 65535).wf = true ∧ (Instr.init 0 0).wf = true ∧ (Instr.xorRk 255).wf = true ∧
    (Instr.gfMul 255 255).wf = true ∧ (Instr.sbox 3 255).wf = true ∧ Instr.decRound.wf = true := by decide

theorem witness_DecodedWordIsItsEncoding : decode 0xFFFFFFFF00000001 = .ok (.init 65535 65535) := by rfl

theorem witness_ReservedOpcodesRaiseIllegal :
    decode 0x00 = .error .reservedOpcode ∧ decode 0x0F = .error .reservedOpcode ∧
    decode 0x19 = .error .reservedOpcode ∧ decode 0x25 = .error .reservedOpcode ∧
    decode 0x2F = .error .reservedOpcode ∧ decode 0x33 = .error .reservedOpcode ∧
    decode 0xFFFFFFFFFFFFFFFF = .error .reservedOpcode := by
  refine ⟨?_, ?_, ?_, ?_, ?_, ?_, ?_⟩ <;> rfl

theorem witness_ReservedBitsRaiseIllegal :
    (0x31, 0xFFFFFFFFFF00FCFF) ∈ matchMasks ∧ (0x00000000001F0231 : Word).toNat % 256 = 0x31 ∧
    (0x00000000001F0231 : Word) &&& 0xFFFFFFFFFF00FCFF = BitVec.ofNat 64 0x31 ∧
    (0x00000000001F0631 : Word).toNat % 256 = 0x31 ∧
    (0x00000000001F0631 : Word) &&& 0xFFFFFFFFFF00FCFF ≠ BitVec.ofNat 64 0x31 := by decide

/-- A latency table with KEY_EXPAND at 128/128 taking 5 cycles. -/
def slow : State :=
  { created 2 2 10 zeroBlock with
    params := { Params.plain with lat := [(⟨3, 2, 2⟩, 5)] }
    pending := .write 0 8 3 :: (List.replicate 5 .idle ++ [.poll]) }

theorem witness_StepRunsTheCommandWord :
    (base.running = none ∧ base.latencyOf 3 = 0 ∧ decode 3 = .ok .keyExpand) ∧
    (slow.running = none ∧ slow.latencyOf 3 = 5 ∧ ∃ rest, slow.pending = .write 0 8 3 :: rest) ∧
    (∃ s : State, s.running = some ⟨3, 1⟩ ∧ s.pending = [.idle]) ∧
    decodeTableWord 64 0x0080008000000001 = some (.init 128 128) :=
  ⟨⟨rfl, by decide, rfl⟩, ⟨rfl, by decide, _, rfl⟩,
    ⟨{ base with running := some ⟨3, 1⟩, pending := [.idle] }, rfl, rfl⟩, rfl⟩

theorem witness_InitChecksConfiguration : LegalPair 512 512 ∧ ¬ LegalPair 192 128 ∧ ¬ LegalPair 128 512 := by
  simp [LegalPair]

/-- A state with no context that meets the invariant, with a key and a result left in the registers. -/
theorem witness_TeardownReleasesContext :
    ∃ s : State, s.Inv ∧ s.lc = .none ∧ s.key = ident 8 ∧ s.sout = 0x31 := by
  refine ⟨{ State.reset with key := ident 8, sout := 0x31 }, ?_, rfl, rfl, rfl⟩
  constructor <;> simp [State.reset]

theorem witness_LifecycleTransitions :
    (∃ t, exec (.init 128 128) base = .next t ∧ t.lastErr = .ok) ∧
    (∃ t, exec .keyExpand (created 2 2 10 zeroBlock) = .next t ∧ t.lastErr = .ok) ∧
    (∃ t, exec .shiftRows (keyed zeroBlock 0 0) = .next t ∧ t.lastErr = .ok) ∧
    (∃ t, exec .teardown (created 2 2 10 zeroBlock) = .next t ∧ t.lc = .none) ∧
    (∃ t, exec (.init 256 256) (keyed zeroBlock 0 0) = .next t ∧ t.lc = .created) ∧
    (∃ t, exec (.gfMul 2 2) base = .next t ∧ t.lastErr = .ok) :=
  ⟨⟨_, rfl, rfl⟩, ⟨_, rfl, rfl⟩, ⟨_, rfl, rfl⟩, ⟨_, rfl, rfl⟩, ⟨_, rfl, rfl⟩, ⟨_, rfl, rfl⟩⟩

theorem witness_ConfigRegisterFields :
    base.lc = .none ∧ (created 8 8 18 zeroBlock).lc ≠ .none ∧ base.running = none := by decide

theorem witness_TableLookupCommands : (3 < 4 ∧ 255 < 256) ∧ (0 < 4 ∧ 0 < 256) := by decide

theorem witness_SubstitutionInverseLaw : ∃ p : Params, p.SboxOk := ⟨Params.plain, plain_sboxOk⟩

theorem witness_PermutationInverseLaw : 2 ∈ [2, 4, 8] ∧ 8 ∈ [2, 4, 8] := by decide

theorem witness_GmulFieldLaws : (0x53 : Byte) ≠ 0 ∧ gmul 0x53 0x8C = 1 := by decide

theorem witness_DiffusionInverseLaw : ∃ p : Params, p.MdsOk := ⟨Params.default, default_mdsOk⟩

theorem witness_RoundKeyMixCommands :
    (keyed (ident 2) 1 2).lc = .keyExpanded ∧ (keyed (ident 2) 1 2).Configured ∧
    0 ≤ (keyed (ident 2) 1 2).nr.toNat ∧ 10 ≤ (keyed (ident 2) 1 2).nr.toNat :=
  ⟨by decide, configured_keyed _ _ _, by decide, by decide⟩

theorem witness_RoundKeyIndexPastNrFails :
    (keyed (ident 2) 1 2).lc = .keyExpanded ∧ (keyed (ident 2) 1 2).nr.toNat < 11 ∧
    (keyed (ident 2) 1 2).nr.toNat < 255 := by decide

theorem witness_MixingLaws : Block.word (two 1 0) 0 = 1 := by decide

theorem witness_RoundCommandsAreTheirStages : (created 2 2 10 (ident 2)).lc ≠ .none := by decide

theorem witness_InverseCommandPairs :
    (created 2 2 10 (ident 2)).lc ≠ .none ∧ (created 2 2 10 (ident 2)).Configured ∧
    (created 2 2 10 (ident 2)).params.Ok := ⟨by decide, configured_created _, plain_ok⟩

/-- A state KEY_EXPAND completes from, at the boundary indices of the clauses about round keys. -/
theorem witness_KeyExpandCommand :
    (created 2 2 10 zeroBlock).lc ≠ .none ∧ (created 2 2 10 zeroBlock).Configured ∧
    (∃ t, exec .keyExpand (created 2 2 10 zeroBlock) = .next t) ∧
    (created 2 2 10 zeroBlock).nr.toNat < 11 ∧ 10 ≤ (created 2 2 10 zeroBlock).nr.toNat ∧
    1 < (created 2 2 10 zeroBlock).cols ∧ (created 2 2 10 zeroBlock).cols ≤ 2 :=
  ⟨by decide, configured_created _, ⟨_, rfl⟩, by decide, by decide, by decide, by decide⟩

/-- Two states with one key, one in CREATED and one in KEY_EXPANDED with other round keys. -/
theorem witness_KeyScheduleDependsOnKeyAlone :
    ∃ s s' t t' : State, s.lc ≠ .none ∧ s'.lc ≠ .none ∧ s.Configured ∧ s'.nb = s.nb ∧ s'.nk = s.nk ∧
      s'.nr = s.nr ∧ s'.params = s.params ∧ (∀ i < s.nk.toNat, Block.word s'.key i = Block.word s.key i) ∧
      s'.rk ≠ s.rk ∧ exec .keyExpand s = .next t ∧ exec .keyExpand s' = .next t' :=
  ⟨created 2 2 10 zeroBlock, keyed zeroBlock 5 6, _, _, by decide, by decide, configured_created _, rfl, rfl,
    rfl, rfl, fun _ _ => rfl, by decide, rfl, rfl⟩

theorem witness_EvenRoundKeysUseTheirWindows :
    (created 2 2 10 zeroBlock).lc ≠ .none ∧ (created 2 2 10 zeroBlock).Configured ∧
    (∃ t, exec .keyExpand (created 2 2 10 zeroBlock) = .next t) ∧
    2 * 5 ≤ (created 2 2 10 zeroBlock).nr.toNat ∧ 1 < (created 2 2 10 zeroBlock).cols :=
  ⟨by decide, configured_created _, ⟨_, rfl⟩, by decide, by decide⟩

theorem witness_OddRoundKeysAreRotations :
    (created 2 2 10 zeroBlock).Configured ∧ (∃ t, exec .keyExpand (created 2 2 10 zeroBlock) = .next t) ∧
    9 % 2 = 1 ∧ 9 < (created 2 2 10 zeroBlock).nr.toNat ∧ 15 < 8 * (created 2 2 10 zeroBlock).cols :=
  ⟨configured_created _, ⟨_, rfl⟩, by decide, by decide, by decide⟩

theorem witness_RoundKeysWrittenOnlyByKeyExpand :
    (∃ t : State, exec .teardown (keyed zeroBlock 5 6) = .next t ∧ t.rk ≠ (keyed zeroBlock 5 6).rk) ∧
    (∃ t : State, step { keyed zeroBlock 5 6 with pending := [.reset] } = .next t ∧
      t.rk ≠ (keyed zeroBlock 5 6).rk) :=
  ⟨⟨_, rfl, by decide⟩, ⟨_, rfl, by decide⟩⟩

theorem witness_DriversAreTheirComponents :
    (keyed (ident 2) 1 2).lc = .keyExpanded ∧ (keyed (ident 2) 1 2).Configured :=
  ⟨by decide, configured_keyed _ _ _⟩

theorem witness_DecipherUndoesEncipher :
    (keyed (ident 2) 1 2).lc = .keyExpanded ∧ (keyed (ident 2) 1 2).Configured ∧
    (keyed (ident 2) 1 2).params.Ok := ⟨by decide, configured_keyed _ _ _, plain_ok⟩

theorem witness_EncipherPermutesBlocks : Params.plain.Ok ∧ 2 ∈ [2, 4, 8] ∧ zeroBlock ∈ blocks 2 :=
  ⟨plain_ok, by decide, fun i _ => Block.word_replicate_zero i⟩

theorem witness_LifecycleCheck :
    ¬ lifecycleAllows .keyExpand .none ∧ lifecycleAllows .keyExpand .created ∧
    ¬ lifecycleAllows .encipher .created ∧ lifecycleAllows .encipher .keyExpanded ∧
    lifecycleAllows .teardown .none := by
  simp [lifecycleAllows]

theorem witness_ErrorsArePrecise :
    (∃ t : State, runCommand 0 base = .next t ∧ t.lastErr ≠ .ok) ∧
    (∃ t : State, runCommand 2 base = .next t ∧ t.lastErr = .ok) :=
  ⟨⟨_, rfl, by decide⟩, ⟨_, rfl, by decide⟩⟩

/-- One word for each error, and for none. -/
theorem witness_FirstErrorIsReported :
    FirstError 0 base .illegalCommand ∧ FirstError 4 base .invalidState ∧
    FirstError 0x008000C000000001 base .unsupportedConfiguration ∧
    FirstError 0x0B20 (keyed zeroBlock 0 0) .range ∧ FirstError 2 base .ok := by
  have h1 : decode 0 = .error .reservedOpcode := rfl
  have h2 : decode 4 = .ok .encipher := rfl
  have h3 : decode 0x008000C000000001 = .ok (.init 192 128) := rfl
  have h4 : decode 0x0B20 = .ok (.addRk 11) := rfl
  have h5 : decode 2 = .ok .teardown := rfl
  refine ⟨?_, ?_, ?_, ?_, ?_⟩ <;> simp only [FirstError, h1, h2, h3, h4, h5]
  · exact .inl ⟨by simp [lifecycleAllows, base, State.reset], trivial⟩
  · exact .inr (.inl ⟨trivial, by simp [LegalPair], rfl⟩)
  · exact .inr (.inl ⟨by simp [lifecycleAllows, keyed], by decide, rfl⟩)
  · exact .inr (.inr ⟨trivial, by simp [OperandError], trivial⟩)

theorem witness_ErrorsStickAndRepeat :
    (∃ s t : State, step s = .next t ∧ (∀ rest, s.pending ≠ .reset :: rest) ∧ s.errSeen = true ∧
      s.protoErr = true) ∧
    (∃ t : State, runCommand 4 base = .next t ∧ t.lastErr ≠ .ok) :=
  ⟨⟨{ base with errSeen := true, protoErr := true }, _, rfl, by simp [base, State.reset], rfl, rfl⟩,
    ⟨_, rfl, by decide⟩⟩

theorem witness_WhatNoCommandChanges :
    ∃ t : State, exec (.gfMul 2 3) base = .next t ∧ t.sout ≠ base.sout := ⟨_, rfl, by decide⟩

theorem witness_ParametersNeverChange : ∃ t, step { base with pending := [.reset] } = .next t := ⟨_, rfl⟩

theorem witness_HostReadMap :
    (31 < 32 ∧ ({ base with pending := [.read (8 * 31) 8] } : State).running = none) ∧
    (0 < 32 ∧ ({ base with pending := [.read (8 * 0) 8] } : State).running = none) := by decide

theorem witness_HostAccessEffects :
    ∃ s : State, s.running = none ∧ s.pending = [.write (8 * 15) 8 7] ∧
      ∃ s' : State, s'.running = none ∧ s'.pending = [.read (8 * 1) 8, .read (8 * 1) 8] :=
  ⟨{ base with pending := [.write (8 * 15) 8 7] }, rfl, rfl,
    { base with pending := [.read (8 * 1) 8, .read (8 * 1) 8] }, rfl, rfl⟩

/-- The boundary registers of each clause: 4, 7, 0, 16 and 23 for reads, 1, 7, 24 and 31 for writes. -/
theorem witness_ReservedAndOneWayRegisters :
    (∀ n ∈ [4, 7, 0, 16, 23], n < 32 ∧ ((4 ≤ n ∧ n ≤ 7) ∨ n = 0 ∨ (16 ≤ n ∧ n ≤ 23))) ∧
    (∀ n ∈ [1, 7, 24, 31], n < 32 ∧ ((1 ≤ n ∧ n ≤ 7) ∨ 24 ≤ n)) ∧
    ({ base with pending := [.read (8 * 23) 8] } : State).running = none := by decide

theorem witness_OtherAccessesHaveNoStep :
    ¬ (4 = 8 ∧ 0x08 % 8 = 0 ∧ 0x08 ≤ 0xF8) ∧ ¬ (8 = 8 ∧ 0x100 % 8 = 0 ∧ 0x100 ≤ 0xF8) ∧
    ¬ (8 = 8 ∧ 0xF9 % 8 = 0 ∧ 0xF9 ≤ 0xF8) ∧ (8 = 8 ∧ 0xF8 % 8 = 0 ∧ 0xF8 ≤ 0xF8) ∧
    ({ base with pending := [.write 0xF8 8 0] } : State).pending = [.write 0xF8 8 0] := by decide

/-- A running command with more than one cycle left, and one in its last cycle, with a write to CMD. -/
theorem witness_BusyWritesAreLost :
    (∃ s : State, s.running = some ⟨3, 2⟩ ∧ s.pending = [.write (8 * 0) 8 4]) ∧
    (∃ s : State, s.running = some ⟨3, 1⟩ ∧ s.pending = [.write (8 * 31) 8 4]) :=
  ⟨⟨{ base with running := some ⟨3, 2⟩, pending := [.write (8 * 0) 8 4] }, rfl, rfl⟩,
    ⟨{ base with running := some ⟨3, 1⟩, pending := [.write (8 * 31) 8 4] }, rfl, rfl⟩⟩

theorem witness_BusyReads :
    (∃ s : State, s.running = some ⟨3, 2⟩ ∧ s.pending = [.read (8 * 1) 8]) ∧
    (∃ s : State, s.running = some ⟨3, 2⟩ ∧ s.pending = [.read (8 * 2) 8]) :=
  ⟨⟨{ base with running := some ⟨3, 2⟩, pending := [.read (8 * 1) 8] }, rfl, rfl⟩,
    ⟨{ base with running := some ⟨3, 2⟩, pending := [.read (8 * 2) 8] }, rfl, rfl⟩⟩

theorem witness_CommandIsBusyForItsLatency :
    slow.running = none ∧ 0 < slow.latencyOf 3 ∧
    slow.pending = .write 0 8 3 :: (List.replicate (slow.latencyOf 3) .idle ++ [.poll]) := by decide

theorem witness_PollingHostSeesAtomicModel :
    ∃ (ops : List PoliteOp) (s : State), ops.length = 4 ∧ s.running = none ∧ s.latencyOf 3 = 5 ∧
      s.pending = politeEvents ops :=
  ⟨[.write 16 (by decide) 7, .command 3, .wait, .read 24],
    { slow with pending := politeEvents [.write 16 (by decide) 7, .command 3, .wait, .read 24] },
    rfl, rfl, by decide, rfl⟩

theorem witness_ResetStep :
    ∃ s : State, s.pending = [.reset] ∧ s.running = some ⟨4, 3⟩ :=
  ⟨{ keyed (ident 2) 1 2 with pending := [.reset], running := some ⟨4, 3⟩ }, rfl, rfl⟩

theorem witness_StepKeepsInvariant : ∃ s t : State, s.Inv ∧ step s = .next t ∧ s.pending ≠ [] := by
  refine ⟨{ State.reset with pending := [.write 0 8 0x0080008000000001] }, _, ?_, rfl, by simp⟩
  constructor <;> simp [State.reset]

theorem witness_AssembledCommandDecodes :
    (Instr.sbox 3 255).wf = true ∧ (Instr.sbox 4 0).wf = false ∧
    (∃ es, assemble 0 0 (.command (.sbox 3 255)) = some es) := ⟨by decide, by decide, _, rfl⟩

theorem witness_PseudoInstructionsExpand :
    (∀ v ∈ [0, 2 ^ 64 - 1], v < 2 ^ 64) ∧ [0, 2 ^ 64 - 1].length = 2 ∧ [0, 2 ^ 64 - 1].length ≠ 4 := by decide

end Sys2Proof.Tests
end

/-!
The algebra of the GF(2^8) product: it keeps exclusive-or in each factor (R201), so every law of it that is
linear in its arguments follows from the bytes with one bit set.
-/

namespace Sys2Proof.Machine

/-- A map of bytes that keeps exclusive-or. -/
def XorHom (f : Byte → Byte) : Prop := ∀ x y, f (x ^^^ y) = f x ^^^ f y

theorem XorHom.map_zero {f : Byte → Byte} (hf : XorHom f) : f 0 = 0 := by
  simpa using hf 0 0

theorem XorHom.map_xorBytes {f : Byte → Byte} (hf : XorHom f) (g : Nat → Byte) :
    f (xorBytes g) = xorBytes fun k => f (g k) := by
  simp only [xorBytes, hf _ _]

/-- A byte is the exclusive-or of its bits. -/
theorem byte_eq_xorBytes_bits :
    ∀ b : Byte, b = xorBytes fun k => if b.getLsbD k then 1 <<< k else 0 := by decide

/-- Two such maps are equal if they agree on the eight bytes with one bit set. -/
theorem XorHom.eq_of_bits {f g : Byte → Byte} (hf : XorHom f) (hg : XorHom g)
    (h : ∀ k < 8, f (1 <<< k) = g (1 <<< k)) (b : Byte) : f b = g b := by
  rw [byte_eq_xorBytes_bits b, hf.map_xorBytes, hg.map_xorBytes]
  refine xorBytes_congr fun k hk => ?_
  split
  · exact h k hk
  · rw [hf.map_zero, hg.map_zero]

theorem xorBytes_xor (f g : Nat → Byte) :
    (xorBytes fun k => f k ^^^ g k) = xorBytes f ^^^ xorBytes g := by
  simp only [xorBytes]
  ac_rfl

/-- The order of two sums over the rows and columns of a matrix does not matter. -/
theorem xorBytes_comm (f : Nat → Nat → Byte) :
    (xorBytes fun k => xorBytes fun c => f k c) = xorBytes fun c => xorBytes fun k => f k c := by
  calc (xorBytes fun k => xorBytes fun c => f k c)
      = xorBytes fun k => f k 0 ^^^ f k 1 ^^^ f k 2 ^^^ f k 3 ^^^ f k 4 ^^^ f k 5 ^^^ f k 6 ^^^ f k 7 := rfl
    _ = xorBytes fun c => xorBytes fun k => f k c := by simp only [xorBytes_xor]; rfl

/-- A sum with one term that is not 0 is that term. -/
theorem xorBytes_single {c : Nat} (hc : c < 8) (f : Nat → Byte) :
    (xorBytes fun k => if k = c then f k else 0) = f c := by
  unfold xorBytes
  interval_cases c <;> simp

/-- The exclusive-or of two conditional additions of one byte is its addition under one of the conditions. -/
theorem ite_xor_ite (p q : Bool) (u v m : Byte) :
    (if p ^^ q then u ^^^ v ^^^ m else u ^^^ v) =
      (if p then u ^^^ m else u) ^^^ (if q then v ^^^ m else v) := by
  cases p <;> cases q
  case true.true =>
    calc u ^^^ v = u ^^^ v ^^^ (m ^^^ m) := by simp
      _ = (u ^^^ m) ^^^ (v ^^^ m) := by ac_rfl
  all_goals simp only [Bool.xor_true, Bool.xor_false, Bool.not_false, if_true, Bool.false_eq_true, if_false]
  all_goals ac_rfl

/-- The doubling of the loop of R201: multiplication by z modulo 0x11D. -/
def double (x : Byte) : Byte := if x.getLsbD 7 then x <<< 1 ^^^ 0x1D#8 else x <<< 1

theorem gmulLoop_succ (n : Nat) (r x y : Byte) :
    gmulLoop (n + 1) r x y = gmulLoop n (if y.getLsbD 0 then r ^^^ x else r) (double x) (y >>> 1) := rfl

theorem double_xorHom : XorHom double := by
  intro x y
  unfold double
  rw [BitVec.getLsbD_xor, BitVec.shiftLeft_xor_distrib, ite_xor_ite]

theorem gmulLoop_xor_left (n : Nat) (r r' x x' y : Byte) :
    gmulLoop n (r ^^^ r') (x ^^^ x') y = gmulLoop n r x y ^^^ gmulLoop n r' x' y := by
  induction n generalizing r r' x x' y with
  | zero => rfl
  | succ n ih =>
    simp only [gmulLoop_succ, double_xorHom x x', ← ih]
    congr 1
    split
    · ac_rfl
    · rfl

theorem gmulLoop_xor_right (n : Nat) (r r' x y y' : Byte) :
    gmulLoop n (r ^^^ r') x (y ^^^ y') = gmulLoop n r x y ^^^ gmulLoop n r' x y' := by
  induction n generalizing r r' x y y' with
  | zero => rfl
  | succ n ih =>
    simp only [gmulLoop_succ, BitVec.ushiftRight_xor_distrib, BitVec.getLsbD_xor, ite_xor_ite, ih]

theorem gmul_xorHom_left (b : Byte) : XorHom fun a => gmul a b := fun x y =>
  gmulLoop_xor_left 8 0 0 x y b

theorem gmul_xorHom_right (a : Byte) : XorHom (gmul a) := fun x y =>
  gmulLoop_xor_right 8 0 0 a x y

theorem XorHom.comp {f g : Byte → Byte} (hf : XorHom f) (hg : XorHom g) : XorHom fun x => f (g x) :=
  fun x y => by simp only [hg x y, hf _ _]

theorem gmul_zero_left (b : Byte) : gmul 0 b = 0 := (gmul_xorHom_left b).map_zero

theorem gmul_zero_right (a : Byte) : gmul a 0 = 0 := (gmul_xorHom_right a).map_zero

theorem gmul_one_left (b : Byte) : gmul 1 b = b :=
  (gmul_xorHom_right 1).eq_of_bits (g := id) (fun _ _ => rfl) (by decide) b

theorem gmul_one_right (a : Byte) : gmul a 1 = a :=
  (gmul_xorHom_left 1).eq_of_bits (g := id) (fun _ _ => rfl) (by decide) a

/-- Both sides keep exclusive-or in each factor, so the law is decided on the bytes with one bit set. -/
theorem gmul_assoc (a b c : Byte) : gmul (gmul a b) c = gmul a (gmul b c) := by
  have bits : ∀ i < 8, ∀ j < 8, ∀ k < 8,
      gmul (gmul (1 <<< i) (1 <<< j)) (1 <<< k) = gmul (1 <<< i) (gmul (1 <<< j) (1 <<< k)) := by decide
  refine ((gmul_xorHom_left c).comp (gmul_xorHom_left b)).eq_of_bits (gmul_xorHom_left _) (fun i hi => ?_) a
  refine ((gmul_xorHom_left c).comp (gmul_xorHom_right _)).eq_of_bits
    ((gmul_xorHom_right _).comp (gmul_xorHom_left c)) (fun j hj => ?_) b
  exact (gmul_xorHom_right _).eq_of_bits ((gmul_xorHom_right _).comp (gmul_xorHom_right _))
    (fun k hk => bits i hi j hj k hk) c

end Sys2Proof.Machine

/-!
Pairs of block functions that undo each other on the nb words (R165, R186, R211, R239, R265), and how such
pairs compose.
-/
namespace Sys2Proof.Machine

/-- `f` and `g` read the words below nb only, and each gives back the nb words that the other was given. -/
structure InversesOn (nb : Nat) (f g : Block → Block) : Prop where
  left_congr : ∀ {S T}, AgreeBelow nb S T → f S = f T
  right_congr : ∀ {S T}, AgreeBelow nb S T → g S = g T
  right_left : ∀ S, g (f S) = window nb 0 S
  left_right : ∀ S, f (g S) = window nb 0 S

/-- The n-word block at word 0 of a block has that block's words below n. -/
theorem agreeBelow_window (n : Nat) (S : Block) : AgreeBelow n (window n 0 S) S := by
  intro i hi
  by_cases h8 : i < 8
  · rw [word_window n 0 S hi h8, Nat.zero_add]
  · rw [Block.word_of_le _ (by omega), Block.word_of_le _ (by omega)]

theorem InversesOn.symm {nb : Nat} {f g : Block → Block} (h : InversesOn nb f g) : InversesOn nb g f :=
  ⟨h.right_congr, h.left_congr, h.left_right, h.right_left⟩

/-- The outer functions undo each other first, and what they leave is the inner functions' block. -/
theorem InversesOn.comp {nb : Nat} {f g f' g' : Block → Block} (h : InversesOn nb f g)
    (h' : InversesOn nb f' g') : InversesOn nb (fun S => f' (f S)) (fun S => g (g' S)) where
  left_congr hST := by rw [h.left_congr hST]
  right_congr hST := by rw [h'.right_congr hST]
  right_left S := by rw [h'.right_left, h.right_congr (agreeBelow_window nb _), h.right_left]
  left_right S := by rw [h.left_right, h'.left_congr (agreeBelow_window nb _), h'.left_right]

/-! ## The substitution -/

theorem invSboxAt_sboxAt_mod {p : Params} (hp : p.SboxOk) (t : Nat) (x : Byte) :
    p.invSboxAt (t % 4) (p.sboxAt (t % 4) x) = x := hp _ (Nat.mod_lt _ (by decide)) x

/-- A left inverse on the finite set of bytes is a right inverse. -/
theorem sboxAt_invSboxAt_mod {p : Params} (hp : p.SboxOk) (t : Nat) (x : Byte) :
    p.sboxAt (t % 4) (p.invSboxAt (t % 4) x) = x := by
  have left : Function.LeftInverse (p.invSboxAt (t % 4)) (p.sboxAt (t % 4)) := invSboxAt_sboxAt_mod hp t
  exact left.rightInverse_of_surjective (Finite.surjective_of_injective left.injective) x

/-- R163 undoes R162 under the contract of R8, and conversely. -/
theorem subBytes_invSubBytes {p : Params} (hp : p.SboxOk) (nb : Nat) :
    InversesOn nb (subBytes p nb) (invSubBytes p nb) where
  left_congr := subBytes_congr p
  right_congr := invSubBytes_congr p
  right_left S := ofWords_congr fun i hi h8 => by
    rw [Nat.zero_add]
    refine word_eq_of_bytes fun j hj => ?_
    rw [byteOf_packWord _ hj, byteOf_subBytes p S hi h8 hj, invSboxAt_sboxAt_mod hp]
  left_right S := ofWords_congr fun i hi h8 => by
    rw [Nat.zero_add]
    refine word_eq_of_bytes fun j hj => ?_
    rw [byteOf_packWord _ hj, byteOf_invSubBytes p S hi h8 hj, sboxAt_invSboxAt_mod hp]

/-- Settles O14, from the inverse pair of the two substitutions. -/
theorem substitutionInverseLaw : Obligations.SubstitutionInverseLaw := fun _ hp =>
  ⟨hp, fun nb => (subBytes_invSubBytes hp nb).right_left, fun nb => (subBytes_invSubBytes hp nb).left_right⟩

/-! ## The permutation -/

theorem shiftAmount_le (nb : Nat) {r : Nat} (hr : r < 8) : shiftAmount nb r ≤ nb := by
  unfold shiftAmount
  have := Nat.mul_le_mul_right nb (show r ≤ 8 by omega)
  omega

/-- A shift by at most n and back, modulo n. -/
theorem sub_add_mod_cancel {c n a : Nat} (hc : c < n) (ha : a ≤ n) : ((c + n - a) % n + a) % n = c := by
  rw [Nat.mod_add_mod, Nat.sub_add_cancel (by omega), Nat.add_mod_right, Nat.mod_eq_of_lt hc]

theorem add_sub_mod_cancel {c n a : Nat} (hc : c < n) (ha : a ≤ n) : ((c + a) % n + n - a) % n = c := by
  rw [Nat.add_sub_assoc ha, Nat.mod_add_mod, show c + a + (n - a) = c + n by omega, Nat.add_mod_right,
    Nat.mod_eq_of_lt hc]

/-- R183 undoes R182, and conversely: each row is rotated by its shift amount and back. -/
theorem shiftRows_invShiftRows {nb : Nat} (hnb : nb ≤ 8) :
    InversesOn nb (shiftRows nb) (invShiftRows nb) where
  left_congr := shiftRows_congr
  right_congr := invShiftRows_congr
  right_left S := ofWords_congr fun c hc _ => by
    have column : ∀ k, k % nb < nb := fun k => Nat.mod_lt k (by omega)
    rw [Nat.zero_add]
    refine word_eq_of_bytes fun r hr => ?_
    rw [byteOf_packWord _ hr, byteOf_shiftRows S (column _) ((column _).trans_le hnb) hr,
      add_sub_mod_cancel hc (shiftAmount_le nb hr)]
  left_right S := ofWords_congr fun c hc _ => by
    have column : ∀ k, k % nb < nb := fun k => Nat.mod_lt k (by omega)
    rw [Nat.zero_add]
    refine word_eq_of_bytes fun r hr => ?_
    rw [byteOf_packWord _ hr, byteOf_invShiftRows S (column _) ((column _).trans_le hnb) hr,
      sub_add_mod_cancel hc (shiftAmount_le nb hr)]

/-! ## The diffusion -/

/-- Entry (r, c) of the matrix product N · M over GF(2^8) (R9, R205). -/
def prodEntry (N M : ByteMatrix) (r c : Nat) : Byte :=
  xorBytes fun k => gmul (N.entry r k) (M.entry k c)

/-- The column products of M and then N are the column product of N · M: the rows' sums distribute over the
products, change their order and are taken together. -/
theorem byteOf_colmul_colmul (N M : ByteMatrix) (w : Word) {r : Nat} (hr : r < 8) :
    byteOf (colmul N (colmul M w)) r = xorBytes fun c => gmul (prodEntry N M r c) (byteOf w c) := by
  rw [byteOf_colmul N _ hr]
  calc (xorBytes fun k => gmul (N.entry r k) (byteOf (colmul M w) k))
      = xorBytes fun k => xorBytes fun c => gmul (gmul (N.entry r k) (M.entry k c)) (byteOf w c) :=
        xorBytes_congr fun k hk => by
          simp only [byteOf_colmul M w hk, (gmul_xorHom_right _).map_xorBytes, gmul_assoc]
    _ = xorBytes fun c => xorBytes fun k => gmul (gmul (N.entry r k) (M.entry k c)) (byteOf w c) :=
        xorBytes_comm _
    _ = xorBytes fun c => gmul (prodEntry N M r c) (byteOf w c) :=
        xorBytes_congr fun c _ => ((gmul_xorHom_left (byteOf w c)).map_xorBytes _).symm

/-- The column whose byte c is 1 and whose other bytes are 0. -/
def unitColumn (c : Nat) : Word := packWord fun k => if k = c then 1 else 0

theorem byteOf_unitColumn (c : Nat) {k : Nat} (hk : k < 8) :
    byteOf (unitColumn c) k = if k = c then 1 else 0 := byteOf_packWord _ hk

theorem byteOf_colmul_colmul_unitColumn (N M : ByteMatrix) {r c : Nat} (hr : r < 8) (hc : c < 8) :
    byteOf (colmul N (colmul M (unitColumn c))) r = prodEntry N M r c := by
  rw [byteOf_colmul_colmul N M _ hr, ← xorBytes_single hc (prodEntry N M r)]
  refine xorBytes_congr fun k hk => ?_
  rw [byteOf_unitColumn c hk]
  split
  · rw [gmul_one_right]
  · rw [gmul_zero_right]

/-- MDS_INV undoes MDS on every column exactly if their product is the identity (R9, R211). -/
theorem mdsOk_iff_colmul (p : Params) : p.MdsOk ↔ ∀ w, colmul p.mdsInv (colmul p.mds w) = w := by
  constructor
  · intro h w
    refine word_eq_of_bytes fun r hr => ?_
    rw [byteOf_colmul_colmul _ _ w hr, ← xorBytes_single hr (byteOf w)]
    refine xorBytes_congr fun c hc => ?_
    rw [show prodEntry p.mdsInv p.mds r c = if r = c then 1 else 0 from h r hr c hc]
    by_cases hcr : c = r
    · rw [if_pos hcr.symm, if_pos hcr, gmul_one_left]
    · rw [if_neg (Ne.symm hcr), if_neg hcr, gmul_zero_left]
  · intro h r hr c hc
    have hcol := byteOf_colmul_colmul_unitColumn p.mdsInv p.mds hr hc
    rw [h, byteOf_unitColumn c hr] at hcol
    exact hcol.symm

/-- A left inverse on the finite set of words is a right inverse. -/
theorem colmul_mds_mdsInv {p : Params} (hp : p.MdsOk) (w : Word) :
    colmul p.mds (colmul p.mdsInv w) = w := by
  have left : Function.LeftInverse (colmul p.mdsInv) (colmul p.mds) := (mdsOk_iff_colmul p).1 hp
  exact left.rightInverse_of_surjective (Finite.surjective_of_injective left.injective) w

/-- R208 undoes R207 under the contract of R9, and conversely. -/
theorem mixColumns_invMixColumns {p : Params} (hp : p.MdsOk) (nb : Nat) :
    InversesOn nb (mixColumns p nb) (invMixColumns p nb) where
  left_congr := mixColumns_congr p
  right_congr := invMixColumns_congr p
  right_left S := ofWords_congr fun c hc h8 => by
    rw [word_mixColumns p S hc h8, (mdsOk_iff_colmul p).1 hp, Nat.zero_add]
  left_right S := ofWords_congr fun c hc h8 => by
    rw [word_invMixColumns p S hc h8, colmul_mds_mdsInv hp, Nat.zero_add]

/-- One column of a block is enough to see the column products. -/
theorem mdsOk_of_invMixColumns_mixColumns {p : Params}
    (h : ∀ S : Block, invMixColumns p 1 (mixColumns p 1 S) = window 1 0 S) : p.MdsOk := by
  rw [mdsOk_iff_colmul]
  intro w
  have hw := congrArg (Block.word · 0) (h (Block.ofWords 1 fun _ => w))
  simpa [word_invMixColumns, word_mixColumns, word_window, word_ofWords_of_lt] using hw

/-- The default matrices meet R9, whatever the tables are. -/
theorem default_mdsOk : Params.default.MdsOk := by
  unfold Params.MdsOk
  decide

/-- Settles O22: the product of the matrices is what the two column products do to a unit column. -/
theorem diffusionInverseLaw : Obligations.DiffusionInverseLaw :=
  ⟨fun _ => ⟨fun h => mdsOk_of_invMixColumns_mixColumns (h 1),
      fun hp nb => (mixColumns_invMixColumns hp nb).right_left⟩,
    fun _ hp nb => (mixColumns_invMixColumns hp nb).left_right, default_mdsOk⟩

end Sys2Proof.Machine

/-!
The mixing and the rounds as inverse pairs (R239, R265), the commands that apply them to STATE, and the
drivers (R323, R324): E_K is built from such pairs, and D_K from their inverses in the opposite order.
-/
namespace Sys2Proof.Machine

open Sys2Proof.Claims

/-! ## The mixing and the rounds -/

/-- SubKey and AddKey with one key (R239). -/
theorem addKey_subKey (nb : Nat) (K : Block) : InversesOn nb (addKey nb · K) (subKey nb · K) where
  left_congr h := addKey_congr h (.rfl' K)
  right_congr h := subKey_congr h (.rfl' K)
  right_left S := ofWords_congr fun i hi h8 => by
    rw [word_addKey S K hi h8, BitVec.add_sub_cancel, Nat.zero_add]
  left_right S := ofWords_congr fun i hi h8 => by
    rw [word_subKey S K hi h8, BitVec.sub_add_cancel, Nat.zero_add]

theorem xorKey_xorKey (nb : Nat) (S K : Block) : xorKey nb (xorKey nb S K) K = window nb 0 S :=
  ofWords_congr fun i hi h8 => by
    rw [word_xorKey S K hi h8, BitVec.xor_assoc, BitVec.xor_self, BitVec.xor_zero, Nat.zero_add]

/-- XorKey with one key is its own inverse (R239). -/
theorem xorKey_self_inverse (nb : Nat) (K : Block) : InversesOn nb (xorKey nb · K) (xorKey nb · K) where
  left_congr h := xorKey_congr h (.rfl' K)
  right_congr h := xorKey_congr h (.rfl' K)
  right_left S := xorKey_xorKey nb S K
  left_right S := xorKey_xorKey nb S K

/-- R265: DecRound takes the three stages of EncRound back, the last one first. -/
theorem encRound_decRound {p : Params} (hp : p.Ok) {nb : Nat} (hnb : nb ≤ 8) :
    InversesOn nb (encRound p nb) (decRound p nb) :=
  ((subBytes_invSubBytes hp.1 nb).comp (shiftRows_invShiftRows hnb)).comp (mixColumns_invMixColumns hp.2 nb)

/-! ## The commands -/

/-- With a context, the command applies f to STATE and does nothing else but LAST_ERR <- 0. -/
def AppliesToState (i : Instr) (f : Params → Nat → Block → Block) : Prop :=
  ∀ s : State, s.lc ≠ .none → exec i s = .next { s.putState (f s.params s.cols s.state) with lastErr := .ok }

/-- A context command whose meaning is a guarded write of STATE applies the written value (R343, R345). -/
theorem appliesToState_of_guarded {i : Instr} {f : Params → Nat → Block → Block} (o : Op)
    (ho : o.requires = .context)
    (h : ∀ s, exec i s = guarded o s (complete (s.putState (f s.params s.cols s.state)))) :
    AppliesToState i f := fun s hlc => by
  rw [h, guarded_of_allowed _ (by rw [ho, allows_context_iff]; exact hlc)]
  rfl

theorem subBytes_applies : AppliesToState .subBytes subBytes :=
  appliesToState_of_guarded .subBytes rfl fun _ => rfl

theorem invSubBytes_applies : AppliesToState .invSubBytes invSubBytes :=
  appliesToState_of_guarded .invSubBytes rfl fun _ => rfl

theorem shiftRows_applies : AppliesToState .shiftRows fun _ => shiftRows :=
  appliesToState_of_guarded .shiftRows rfl fun _ => rfl

theorem invShiftRows_applies : AppliesToState .invShiftRows fun _ => invShiftRows :=
  appliesToState_of_guarded .invShiftRows rfl fun _ => rfl

theorem mixColumns_applies : AppliesToState .mixColumns mixColumns :=
  appliesToState_of_guarded .mixColumns rfl fun _ => rfl

theorem invMixColumns_applies : AppliesToState .invMixColumns invMixColumns :=
  appliesToState_of_guarded .invMixColumns rfl fun _ => rfl

theorem encRound_applies : AppliesToState .encRound encRound :=
  appliesToState_of_guarded .encRound rfl fun _ => rfl

theorem decRound_applies : AppliesToState .decRound decRound :=
  appliesToState_of_guarded .decRound rfl fun _ => rfl

/-- Writing the nb words of a block over a block that differs from it in no other word restores it. -/
theorem merge_window_merge (n : Nat) (new S : Block) :
    Block.merge n (window n 0 S) (Block.merge n new S) = S := by
  refine Block.eq_of_words fun i _ => ?_
  rw [Block.word_merge, Block.word_merge]
  split
  · exact agreeBelow_window n S i ‹_›
  · rfl

/-- Two commands that apply an inverse pair to STATE leave the whole state but LAST_ERR. -/
theorem execAll_inverse_pair {i j : Instr} {f g : Params → Nat → Block → Block} (hi : AppliesToState i f)
    (hj : AppliesToState j g) {s : State} (hlc : s.lc ≠ .none)
    (h : InversesOn s.cols (f s.params s.cols) (g s.params s.cols)) :
    execAll [i, j] s = .next { s with lastErr := .ok } := by
  have back : g s.params s.cols (Block.merge s.cols (f s.params s.cols s.state) s.state) =
      window s.cols 0 s.state := by
    rw [h.right_congr (agreeBelow_merge _ _ _), h.right_left]
  simp only [execAll, hi s hlc]
  rw [hj { s.putState (f s.params s.cols s.state) with lastErr := .ok } hlc]
  simp only [State.putState, State.cols] at back ⊢
  rw [back, merge_window_merge]

/-- The state width of a configured state fits the storage (R33, R34). -/
theorem cols_le_eight {s : State} (h : s.Configured) : s.cols ≤ 8 := by
  obtain ⟨hcols, -⟩ := configured_cases h
  omega

/-- Settles O29: each listed pair of commands applies an inverse pair to STATE. -/
theorem inverseCommandPairs : Obligations.InverseCommandPairs := by
  intro s hlc hconf hp pair hpair
  have hnb := cols_le_eight hconf
  have hsub := subBytes_invSubBytes hp.1 s.cols
  have hshift := shiftRows_invShiftRows hnb
  have hmix := mixColumns_invMixColumns hp.2 s.cols
  have hround := encRound_decRound hp hnb
  simp only [List.mem_cons, List.not_mem_nil, or_false] at hpair
  rcases hpair with rfl | rfl | rfl | rfl | rfl | rfl | rfl | rfl
  · exact execAll_inverse_pair subBytes_applies invSubBytes_applies hlc hsub
  · exact execAll_inverse_pair invSubBytes_applies subBytes_applies hlc hsub.symm
  · exact execAll_inverse_pair shiftRows_applies invShiftRows_applies hlc hshift
  · exact execAll_inverse_pair invShiftRows_applies shiftRows_applies hlc hshift.symm
  · exact execAll_inverse_pair mixColumns_applies invMixColumns_applies hlc hmix
  · exact execAll_inverse_pair invMixColumns_applies mixColumns_applies hlc hmix.symm
  · exact execAll_inverse_pair encRound_applies decRound_applies hlc hround
  · exact execAll_inverse_pair decRound_applies encRound_applies hlc hround.symm

/-! ## The drivers -/

/-- The interior rounds with their last round taken out, where `encRounds` takes out the first (R321). -/
theorem encRounds_succ_last (p : Params) (nb : Nat) (rk : RkFile) (n r : Nat) (S : Block) :
    encRounds p nb rk (n + 1) r S =
      xorKey nb (encRound p nb (encRounds p nb rk n r S)) (RkFile.block rk (r + n)) := by
  induction n generalizing r S with
  | zero => rfl
  | succ n ih => rw [encRounds, ih, Nat.succ_add_eq_add_succ]; rfl

/-- The interior rounds with the round after them: R322 shifts the key of a round past its DecRound, so the
pairs are `encRound, xorKey` and `xorKey, decRound`. -/
theorem encRounds_decRounds {p : Params} (hp : p.Ok) {nb : Nat} (hnb : nb ≤ 8) (rk : RkFile) (n : Nat) :
    InversesOn nb (fun S => encRound p nb (encRounds p nb rk n 1 S))
      (fun S => decRound p nb (decRounds p nb rk n S)) := by
  have round := encRound_decRound hp hnb
  induction n with
  | zero => exact round
  | succ n ih =>
    have last := ih.comp ((xorKey_self_inverse nb (RkFile.block rk (n + 1))).comp round)
    simpa only [encRounds_succ_last, decRounds, Nat.add_comm 1 n] using last

/-- R323: D_K is E_K with every step taken back, the last one first. -/
theorem encipherBlock_decipherBlock {p : Params} (hp : p.Ok) {nb : Nat} (hnb : nb ≤ 8) (nr : Nat)
    (rk : RkFile) : InversesOn nb (encipherBlock p nb nr rk) (decipherBlock p nb nr rk) :=
  ((addKey_subKey nb (RkFile.block rk 0)).comp (encRounds_decRounds hp hnb rk (nr - 1))).comp
    (addKey_subKey nb (RkFile.block rk nr))

/-- ENCIPHER with a key schedule completes with E_K of DIN (R321). -/
theorem exec_encipher {s : State} (h : s.lc = .keyExpanded) :
    exec .encipher s = .next
      { s.putState (encipherBlock s.params s.cols s.nr.toNat s.rk s.dataIn) with lastErr := .ok } :=
  guarded_of_allowed (o := .encipher) _ (allows_expanded_iff.2 h)

/-- DECIPHER with a key schedule completes with D_K of DIN (R322). -/
theorem exec_decipher {s : State} (h : s.lc = .keyExpanded) :
    exec .decipher s = .next
      { s.putState (decipherBlock s.params s.cols s.nr.toNat s.rk s.dataIn) with lastErr := .ok } :=
  guarded_of_allowed (o := .decipher) _ (allows_expanded_iff.2 h)

/-- Settles O38: D_K undoes E_K on the words below nb, and the drivers read and write no others. -/
theorem decipherUndoesEncipher : Obligations.DecipherUndoesEncipher := by
  intro s hlc hconf hp
  refine ⟨_, exec_encipher hlc, rfl, fun u hu hnb hnr hrk hparams hdin => ⟨_, exec_decipher hu, rfl, ?_⟩⟩
  have pair := encipherBlock_decipherBlock hp (cols_le_eight hconf) s.nr.toNat s.rk
  have cols : u.cols = s.cols := congrArg BitVec.toNat hnb
  have result : AgreeBelow s.cols u.dataIn (encipherBlock s.params s.cols s.nr.toNat s.rk s.dataIn) := by
    intro i hi
    rw [State.dataIn, cols, agreeBelow_window _ _ i hi, hdin i hi]
    exact agreeBelow_merge _ _ _ i hi
  intro i hi
  calc Block.word (u.putState (decipherBlock u.params u.cols u.nr.toNat u.rk u.dataIn)).state i
      = Block.word (decipherBlock s.params s.cols s.nr.toNat s.rk u.dataIn) i := by
        rw [word_putState, cols, if_pos hi, hparams, hnr, hrk]
    _ = Block.word (window s.cols 0 s.dataIn) i := by rw [pair.right_congr result, pair.right_left]
    _ = Block.word s.din i := by
        rw [agreeBelow_window _ _ i hi, State.dataIn, agreeBelow_window _ _ i hi]

/-- An nb-word block is the window of its own nb words. -/
theorem window_of_mem_blocks {nb : Nat} {S : Block} (h : S ∈ blocks nb) : window nb 0 S = S := by
  refine Block.eq_of_words fun i _ => ?_
  by_cases hi : i < nb
  · exact agreeBelow_window nb S i hi
  · rw [h i (by omega)]
    exact word_ofWords_of_le _ (by omega)

theorem encipherBlock_mem_blocks (p : Params) (nb nr : Nat) (rk : RkFile) (P : Block) :
    encipherBlock p nb nr rk P ∈ blocks nb := fun _ => word_ofWords_of_le _

theorem decipherBlock_mem_blocks (p : Params) (nb nr : Nat) (rk : RkFile) (C : Block) :
    decipherBlock p nb nr rk C ∈ blocks nb := fun _ => word_ofWords_of_le _

/-- Settles O39, from the inverse pair of the two drivers on nb-word blocks. -/
theorem encipherPermutesBlocks : Obligations.EncipherPermutesBlocks := by
  intro p hp nb hnb nr rk
  have hnb8 : nb ≤ 8 := by
    simp only [List.mem_cons, List.not_mem_nil, or_false] at hnb
    omega
  have pair := encipherBlock_decipherBlock hp hnb8 nr rk
  have left : Set.LeftInvOn (decipherBlock p nb nr rk) (encipherBlock p nb nr rk) (blocks nb) :=
    fun P hP => (pair.right_left P).trans (window_of_mem_blocks hP)
  have right : Set.RightInvOn (decipherBlock p nb nr rk) (encipherBlock p nb nr rk) (blocks nb) :=
    fun C hC => (pair.left_right C).trans (window_of_mem_blocks hC)
  exact ⟨left, right, Set.InvOn.bijOn ⟨left, right⟩ (fun P _ => encipherBlock_mem_blocks p nb nr rk P)
    (fun C _ => decipherBlock_mem_blocks p nb nr rk C)⟩

end Sys2Proof.Machine

/-!
What one step can do, said once: reset, a change of the host's side alone, or a command word that runs. The
invariant (R34 to R37, R43, R45), the writers of RK (R36) and the parameters (R52) are read off from it.
-/
namespace Sys2Proof.Machine

/-- From s to t only the host's side changes: DIN, KEY, PROTO_ERR, the engine's timing, the host's accesses and
what it has read. The context, RK, the scratch, SOUT and the error code stay. -/
def HostSide (s t : State) : Prop :=
  t = { s with
    din := t.din, key := t.key, protoErr := t.protoErr, running := t.running, pending := t.pending,
    got := t.got, freeIdx := t.freeIdx }

theorem HostSide.trans {s t u : State} (h : HostSide s t) (h' : HostSide t u) : HostSide s u := by
  unfold HostSide at *
  rw [h'.trans (congrArg (fun t : State => { t with
    din := u.din, key := u.key, protoErr := u.protoErr, running := u.running, pending := u.pending,
    got := u.got, freeIdx := u.freeIdx }) h)]

theorem hostSide_refl (s : State) : HostSide s s := rfl

theorem hostSide_pending (s : State) (es : List HostEvent) : HostSide s { s with pending := es } := rfl

theorem hostSide_running (s : State) (r : Option Running) : HostSide s { s with running := r } := rfl

theorem hostSide_protoErr (s : State) (b : Bool) : HostSide s { s with protoErr := b } := rfl

theorem hostSide_hostRead (n : Nat) (s : State) : HostSide s (hostRead n s) := by
  unfold HostSide
  rw [hostRead_eq]

theorem hostSide_writeReg (s : State) (n : Nat) (v : Word) : HostSide s (s.writeReg n v) := by
  unfold HostSide
  rw [State.writeReg_eq]

@[simp] theorem hostRead_running (n : Nat) (s : State) : (hostRead n s).running = s.running := by
  rw [hostRead_eq]

@[simp] theorem writeReg_running (s : State) (n : Nat) (v : Word) : (s.writeReg n v).running = s.running := by
  rw [State.writeReg_eq]

theorem busy_eq_false_iff {s : State} : s.busy = false ↔ s.running = none :=
  Option.isSome_eq_false_iff.trans Option.isNone_iff_eq_none

/-- A running command has a cycle left (R384). -/
def State.HasCycleLeft (s : State) : Prop := ∀ r, s.running = some r → 1 ≤ r.left

theorem hasCycleLeft_of_none {s : State} (h : s.running = none) : s.HasCycleLeft := by
  intro r hr
  cases h.symm.trans hr

/-- The word c is the one a step from s runs or starts: the next CMD write, or the running command. -/
def AtHand (c : Word) (s : State) : Prop :=
  (∃ rest, s.pending = .write 0 8 c :: rest) ∨ ∃ left, s.running = some ⟨c, left⟩

/-- From s to t either only the host's side changes, or after such a change a command word at hand runs. -/
def HostSideOrCommand (s t : State) : Prop :=
  (HostSide s t ∧ t.HasCycleLeft) ∨
  ∃ c u, AtHand c s ∧ HostSide s u ∧ u.running = none ∧ runCommand c u = .next t

/-- The engine's part of a cycle, after an event that changes the host's side alone. -/
theorem hostSideOrCommand_tick {s u t : State} (h : HostSide s u) (hr : u.running = s.running)
    (ht : tick u = .next t) : HostSideOrCommand s t := by
  rcases tick_cases u with ⟨hn, e⟩ | ⟨r, -, hl, e⟩ | ⟨r, hs, -, e⟩ <;> rw [e] at ht
  · cases ht
    exact .inl ⟨h, hasCycleLeft_of_none hn⟩
  · cases ht
    refine .inl ⟨h.trans (hostSide_running u _), fun r' hr' => ?_⟩
    cases hr'
    exact Nat.le_sub_one_of_lt hl
  · exact .inr ⟨r.cmd, _, .inr ⟨r.left, hr.symm.trans hs⟩, h.trans (hostSide_running u _), rfl, ht⟩

/-- A CMD write while no command runs. -/
theorem hostSideOrCommand_startCommand {s t : State} {c : Word} {rest : List HostEvent}
    (hp : s.pending = .write 0 8 c :: rest) (hn : s.running = none)
    (ht : startCommand c { s with pending := rest } = .next t) : HostSideOrCommand s t := by
  rcases startCommand_cases c { s with pending := rest } with ⟨-, e⟩ | ⟨hl, e⟩ <;> rw [e] at ht
  · exact .inr ⟨c, _, .inl ⟨rest, hp⟩, hostSide_pending s rest, hn, ht⟩
  · cases ht
    refine .inl ⟨(hostSide_pending s rest).trans (hostSide_running _ _), fun r hr => ?_⟩
    cases hr
    exact hl

/-- An allowed address whose register is CMD is 0 (R41, R75). -/
theorem addr_eq_zero {a : Nat} (hok : accessOk a 8 = true) (h : a / 8 = 0) : a = 0 := by
  simp only [accessOk, Bool.and_eq_true, decide_eq_true_eq] at hok
  omega

/-- Everything a step that answers a next state can do. -/
theorem step_cases {s t : State} (h : step s = .next t) :
    (∃ rest, s.pending = .reset :: rest ∧ t = { s.resetBlock with pending := rest }) ∨
    HostSideOrCommand s t := by
  unfold step at h
  rcases cycle_cases s with ⟨e, -⟩ | ⟨rest, -, e⟩ | ⟨a, rest, -, -, e⟩ | ⟨a, v, rest, hp, hok, e⟩ |
    ⟨rest, -, -, e⟩ | ⟨rest, hp, e⟩ | ⟨_, _, -, e⟩ | ⟨_, -, -, e⟩ <;> rw [e] at h
  · exact .inr (hostSideOrCommand_tick (hostSide_refl s) rfl h)
  · exact .inr (hostSideOrCommand_tick (hostSide_pending s rest) rfl h)
  · exact .inr (hostSideOrCommand_tick ((hostSide_pending s rest).trans (hostSide_hostRead _ _)) (by simp) h)
  · rcases hostWrite_cases (a / 8) v { s with pending := rest } with ⟨-, e⟩ | ⟨hb, hn, e⟩ | ⟨hb, -, e⟩ <;>
      rw [e] at h
    · exact .inr (hostSideOrCommand_tick ((hostSide_pending s rest).trans (hostSide_protoErr _ true)) rfl h)
    · obtain rfl := addr_eq_zero hok hn
      exact .inr (hostSideOrCommand_startCommand hp (busy_eq_false_iff.1 hb) h)
    · cases h
      refine .inr (.inl ⟨(hostSide_pending s rest).trans (hostSide_writeReg _ _ v), hasCycleLeft_of_none ?_⟩)
      rw [writeReg_running]
      exact busy_eq_false_iff.1 hb
  · exact .inr (hostSideOrCommand_tick ((hostSide_pending s rest).trans (hostSide_hostRead _ _)) (by simp) h)
  · cases h
    exact .inl ⟨rest, hp, rfl⟩
  · cases h
  · cases h

/-! ## The invariant -/

/-- A state with no context, everything of it zero and no error recorded, meets the invariant. -/
theorem inv_of_no_context {s : State} (hlc : s.lc = .none) (hconf : s.nb = 0 ∧ s.nk = 0 ∧ s.nr = 0)
    (hstate : s.state = zeroBlock) (hrk : s.rk = zeroRk)
    (hscratch : s.kt = zeroBlock ∧ s.tmv = zeroBlock ∧ s.ktRound = zeroBlock ∧ s.initialData = zeroBlock ∧
      s.k0 = zeroBlock ∧ s.k1 = zeroBlock)
    (hsout : s.sout.toNat < 256) (herr : s.lastErr = .ok) (hrun : s.HasCycleLeft) : s.Inv where
  none_iff := iff_of_true hlc hconf
  configured h := absurd hlc h
  created_rk _ := hrk
  expanded_rk h := by cases hlc.symm.trans h
  state_tail i _ := by rw [hstate, word_zeroBlock]
  rk_tail j i _ := by rw [hrk, block_zeroRk, word_zeroBlock]
  none_rk _ := hrk
  none_scratch _ := hscratch
  sout_byte := hsout
  err_seen h := absurd herr h
  no_alloc := by simp [herr]
  running_left := hrun

theorem resetBlock_inv (s : State) : s.resetBlock.Inv :=
  inv_of_no_context rfl ⟨rfl, rfl, rfl⟩ rfl rfl ⟨rfl, rfl, rfl, rfl, rfl, rfl⟩
    (by decide : (0 : Word).toNat < 256) rfl (hasCycleLeft_of_none rfl)

theorem tornDown_inv {s : State} (h : s.Inv) : (tornDown s).Inv :=
  inv_of_no_context rfl ⟨rfl, rfl, rfl⟩ rfl rfl ⟨rfl, rfl, rfl, rfl, rfl, rfl⟩ h.sout_byte rfl h.running_left

/-- A change of the host's side keeps the invariant if a running command has a cycle left. -/
theorem State.Inv.hostSide {s t : State} (h : s.Inv) (ht : HostSide s t) (hrun : t.HasCycleLeft) : t.Inv := by
  unfold HostSide at ht
  rw [ht] at hrun ⊢
  exact { h with running_left := hrun }

/-- A recorded error keeps the invariant (R43, R344, R350). -/
theorem State.Inv.recordError {s : State} (h : s.Inv) {e : ErrorCode} (he : e ≠ .allocationFailure) :
    State.Inv { s with lastErr := e, errSeen := true } :=
  { h with err_seen := fun _ => rfl, no_alloc := he }

/-- LAST_ERR <- 0 keeps the invariant (R345). -/
theorem State.Inv.clearError {s : State} (h : s.Inv) : State.Inv { s with lastErr := .ok } :=
  { h with err_seen := fun hne => absurd rfl hne, no_alloc := nofun }

/-- A write of STATE[0..nb-1] leaves the words above nb zero (R34). -/
theorem State.Inv.putState {s : State} (h : s.Inv) (v : Block) : (s.putState v).Inv :=
  { h with
    state_tail := fun i hi => by
      exact (word_putState s v i).trans ((if_neg (Nat.not_lt.2 hi)).trans (h.state_tail i hi)) }

/-- SOUT <- zext_64(y) leaves a byte there (R45). -/
theorem putSout_sout_byte (s : State) (y : Byte) : (s.putSout y).sout.toNat < 256 := by
  rw [State.putSout_sout, BitVec.toNat_setWidth, Nat.mod_eq_of_lt (by omega)]
  exact y.isLt

theorem State.Inv.putSout {s : State} (h : s.Inv) (y : Byte) : (s.putSout y).Inv :=
  { h with sout_byte := putSout_sout_byte s y }

/-- INIT of a legal pair loads its row of R6 (R33, R142). -/
theorem initialised_hasConf (cf : Conf) (s : State) : (initialised cf s).HasConf cf := by
  have widths : (BitVec.ofNat 8 cf.nb).toNat = cf.nb ∧ (BitVec.ofNat 8 cf.nk).toNat = cf.nk := by
    cases cf <;> decide
  refine ⟨widths.1, widths.2, ?_⟩
  exact Nat.mod_eq_of_lt ((rounds_even s.params.nrTable cf).2.2.trans (by decide))

/-- A configured state has a nonzero state width, so it is not the configuration of NONE (R37). -/
theorem State.Configured.nb_ne_zero {s : State} (h : s.Configured) : s.nb ≠ 0 := by
  obtain ⟨hcols, -⟩ := configured_cases h
  intro h0
  simp [State.cols, h0] at hcols

theorem initialised_inv {s : State} (h : s.Inv) (cf : Conf) : (initialised cf s).Inv where
  none_iff := iff_of_false (by simp [initialised])
    fun h0 => State.Configured.nb_ne_zero ⟨cf, initialised_hasConf cf s⟩ h0.1
  configured _ := ⟨cf, initialised_hasConf cf s⟩
  created_rk _ := rfl
  expanded_rk h := by cases h
  state_tail i _ := word_zeroBlock i
  rk_tail j i _ := (congrArg (Block.word · i) (block_zeroRk j)).trans (word_zeroBlock i)
  none_rk h := by cases h
  none_scratch h := by cases h
  sout_byte := h.sout_byte
  err_seen h := absurd rfl h
  no_alloc := nofun
  running_left := h.running_left

/-- KEY_EXPAND leaves the schedule of KEY in the words of RK below nr and nb, whatever stood there (R281, R290). -/
theorem expanded_hasSchedule {s : State} (hconf : s.Configured) : (expanded (scheduleOf s) s).HasSchedule := by
  obtain ⟨-, -, -, heven, -, h19⟩ := configured_cases hconf
  exact ⟨s.keyIn, fun j hj i hi => keySchedule_congr s.params heven h19 s.keyIn s.rk zeroRk hj hi⟩

theorem expanded_inv {s : State} (h : s.Inv) (hlc : s.lc ≠ .none) : (expanded (scheduleOf s) s).Inv where
  none_iff := iff_of_false (by simp [expanded]) fun h0 => hlc (h.none_iff.2 h0)
  configured _ := h.configured hlc
  created_rk h := by cases h
  expanded_rk _ := expanded_hasSchedule (h.configured hlc)
  state_tail := (h.putState _).state_tail
  rk_tail j i hji := by
    obtain ⟨-, -, -, heven, -⟩ := configured_cases (h.configured hlc)
    exact (keySchedule_frame s.params heven s.keyIn s.rk hji).trans (h.rk_tail j i hji)
  none_rk h := by cases h
  none_scratch h := by cases h
  sout_byte := h.sout_byte
  err_seen h := absurd rfl h
  no_alloc := nofun
  running_left := h.running_left

theorem exec_keeps_inv {i : Instr} {s t : State} (h : s.Inv) (ht : exec i s = .next t) : t.Inv := by
  rcases exec_cases i s with ⟨e, -, he, -, heq⟩ | ⟨_, _, cf, -, -, heq⟩ | ⟨-, heq⟩ | ⟨-, hlc, heq⟩ |
    ⟨-, -, v, heq⟩ | ⟨-, y, heq⟩ <;> cases heq.symm.trans ht
  · exact h.recordError he
  · exact initialised_inv h cf
  · exact tornDown_inv h
  · exact expanded_inv h hlc
  · exact (h.putState v).clearError
  · exact (h.putSout y).clearError

theorem runCommand_keeps_inv {c : Word} {s t : State} (h : s.Inv) (ht : runCommand c s = .next t) : t.Inv := by
  unfold runCommand at ht
  split at ht
  · exact exec_keeps_inv h ht
  · rw [raise_eq_next ht]
    exact h.recordError (by decide)

/-- Settles O58, by the three things a step can do. -/
theorem stepKeepsInvariant : Obligations.StepKeepsInvariant := by
  intro s t h ht
  rcases step_cases ht with ⟨rest, -, rfl⟩ | ⟨hs, hrun⟩ | ⟨c, u, -, hs, hnone, hrun⟩
  · exact (resetBlock_inv s).hostSide (hostSide_pending _ rest) (hasCycleLeft_of_none rfl)
  · exact h.hostSide hs hrun
  · exact runCommand_keeps_inv (h.hostSide hs (hasCycleLeft_of_none hnone)) hrun

/-! ## The reset state, the frame of a command, the writers of RK -/

/-- INV_SBOX at reset holds the inverses of the free bijections (R8). -/
theorem default_sboxOk : Params.default.SboxOk := by
  intro t _ x
  simp [Params.sboxAt, Params.invSboxAt, Params.default, Equiv.symm_apply_apply]

/-- Settles O57: the reset state is what a reset leaves of it. -/
theorem resetMeetsInvariant : Obligations.ResetMeetsInvariant :=
  ⟨resetBlock_inv State.reset, default_sboxOk, default_mdsOk⟩

/-- Settles O44, by the six things a command can do. -/
theorem whatNoCommandChanges : Obligations.WhatNoCommandChanges := by
  intro i s t ht
  rcases exec_cases i s with ⟨_, -, -, -, heq⟩ | ⟨_, _, _, -, -, heq⟩ | ⟨-, heq⟩ | ⟨-, -, heq⟩ |
    ⟨-, -, _, heq⟩ | ⟨hi, y, heq⟩ <;> cases heq.symm.trans ht
  case inr.inr.inr.inr.inr =>
    refine ⟨rfl, rfl, rfl, rfl, rfl, rfl, rfl, rfl, fun _ => ⟨putSout_sout_byte s y, ?_⟩⟩
    cases i with
    | gfMul a b => exact .inl ⟨a, b, rfl⟩
    | sbox n x => exact .inr (.inl ⟨n, x, rfl⟩)
    | invSbox n x => exact .inr (.inr ⟨n, x, rfl⟩)
    | _ => cases hi
  all_goals exact ⟨rfl, rfl, rfl, rfl, rfl, rfl, rfl, rfl, fun hne => absurd rfl hne⟩

/-- A command word that runs is a command, or changes only STATUS (R107, R344). -/
theorem runCommand_cases {c : Word} {s t : State} (h : runCommand c s = .next t) :
    (∃ i, decode c = .ok i ∧ exec i s = .next t) ∨ t = { s with lastErr := .illegalCommand, errSeen := true } := by
  unfold runCommand at h
  split at h
  · exact .inl ⟨_, ‹_›, h⟩
  · exact .inr (raise_eq_next h)

theorem runCommand_params {c : Word} {s t : State} (h : runCommand c s = .next t) : t.params = s.params := by
  rcases runCommand_cases h with ⟨i, -, hi⟩ | rfl
  · exact (whatNoCommandChanges i s t hi).1
  · rfl

theorem HostSide.params {s t : State} (h : HostSide s t) : t.params = s.params := by
  unfold HostSide at h
  rw [h]

theorem HostSide.rk {s t : State} (h : HostSide s t) : t.rk = s.rk := by
  unfold HostSide at h
  rw [h]

/-- Settles O45, by the three things a step can do. -/
theorem parametersNeverChange : Obligations.ParametersNeverChange := by
  intro s t ht
  rcases step_cases ht with ⟨_, -, rfl⟩ | ⟨hs, -⟩ | ⟨_, u, -, hs, -, hrun⟩
  · rfl
  · exact hs.params
  · exact (runCommand_params hrun).trans hs.params

/-- INIT or TEARDOWN, the commands that clear the context (R140). -/
def ClearsContext (i : Instr) : Prop := i = .teardown ∨ ∃ blk keyb, i = .init blk keyb

/-- What a command does to RK: nothing, KEY_EXPAND writes it, INIT and TEARDOWN zero it (R36). -/
theorem exec_rk {i : Instr} {s t : State} (ht : exec i s = .next t) :
    t.rk = s.rk ∨ i = .keyExpand ∨ (ClearsContext i ∧ t.rk = zeroRk) := by
  rcases exec_cases i s with ⟨_, -, -, -, heq⟩ | ⟨blk, keyb, _, rfl, -, heq⟩ | ⟨rfl, heq⟩ | ⟨hi, -, -⟩ |
    ⟨-, -, _, heq⟩ | ⟨-, _, heq⟩
  case inr.inr.inr.inl => exact .inr (.inl hi)
  all_goals cases heq.symm.trans ht
  · exact .inl rfl
  · exact .inr (.inr ⟨.inr ⟨blk, keyb, rfl⟩, rfl⟩)
  · exact .inr (.inr ⟨.inl rfl, rfl⟩)
  · exact .inl rfl
  · exact .inl rfl

/-- A successful INIT and every TEARDOWN leave RK zero (R36, R140). -/
theorem exec_rk_of_clearsContext {i : Instr} {s t : State} (ht : exec i s = .next t) (hok : t.lastErr = .ok)
    (hi : ClearsContext i) : t.rk = zeroRk := by
  rcases exec_cases i s with ⟨e, he, -, -, heq⟩ | ⟨_, _, _, -, -, heq⟩ | ⟨-, heq⟩ | ⟨rfl, -, -⟩ |
    ⟨hw, -⟩ | ⟨hw, -⟩
  · cases heq.symm.trans ht
    exact absurd hok he
  · cases heq.symm.trans ht
    rfl
  · cases heq.symm.trans ht
    rfl
  · rcases hi with hi | ⟨_, _, hi⟩ <;> cases hi
  · rcases hi with rfl | ⟨_, _, rfl⟩ <;> cases hw
  · rcases hi with rfl | ⟨_, _, rfl⟩ <;> cases hw

/-- A command word that changes RK leaves it zero or is a KEY_EXPAND word (R36). -/
theorem runCommand_rk {c : Word} {s t : State} (h : runCommand c s = .next t) :
    t.rk = s.rk ∨ t.rk = zeroRk ∨ decode c = .ok .keyExpand := by
  rcases runCommand_cases h with ⟨i, hc, hi⟩ | rfl
  · rcases exec_rk hi with hrk | rfl | ⟨-, hrk⟩
    · exact .inl hrk
    · exact .inr (.inr hc)
    · exact .inr (.inl hrk)
  · exact .inl rfl

/-- A step that changes RK leaves it zero or runs a KEY_EXPAND word at hand (R36). -/
theorem step_rk {s t : State} (ht : step s = .next t) (hne : t.rk ≠ s.rk) :
    t.rk = zeroRk ∨ ∃ c, decode c = .ok .keyExpand ∧ AtHand c s := by
  rcases step_cases ht with ⟨_, -, rfl⟩ | ⟨hs, -⟩ | ⟨c, u, hc, hs, -, hrun⟩
  · exact .inl rfl
  · exact absurd hs.rk hne
  · rcases runCommand_rk hrun with hrk | hrk | hdec
    · exact absurd (hrk.trans hs.rk) hne
    · exact .inl hrk
    · exact .inr ⟨c, hdec, hc⟩

/-- With the reset input next, the step is reset (R380). -/
theorem step_reset {s : State} {rest : List HostEvent} (hp : s.pending = .reset :: rest) :
    step s = .next { s.resetBlock with pending := rest } := by
  unfold step cycle
  rw [hp]

/-- Settles O36, from what a command, a step and a host write do to RK. -/
theorem roundKeysWrittenOnlyByKeyExpand : Obligations.RoundKeysWrittenOnlyByKeyExpand :=
  ⟨fun _ _ _ ht hne => (exec_rk ht).resolve_left hne,
    fun _ _ _ ht hok hi => exec_rk_of_clearsContext ht hok hi,
    fun _ _ hp => ⟨_, step_reset hp, rfl⟩,
    fun _ _ ht hne => step_rk ht hne,
    fun n v s => (hostSide_writeReg s n v).rk⟩

/-- Settles O54: reset is one step, whatever runs. -/
theorem resetStep : Obligations.ResetStep := fun _ _ hp => step_reset hp

/-- Settles O55: every register of the reset state is a zero literal, block or file. -/
theorem resetValues : Obligations.ResetValues := by
  have zero : ∀ i, Block.word zeroBlock i = 0 := word_zeroBlock
  have rk : ∀ j i, Block.word (RkFile.block zeroRk j) i = 0 := fun j i => by rw [block_zeroRk, zero]
  refine ⟨rfl, rfl, rfl, rfl, fun i _ => ?_, fun j _ i _ => rk j i, rfl, rfl, rfl, rfl, rfl, by decide⟩
  exact ⟨zero i, zero i, zero i, zero i, zero i, zero i, zero i, zero i, zero i⟩

/-- Settles O56: a read reaches STATUS, CONFIG, SOUT, DIN and STATE, none of which holds key material. -/
theorem keyMaterialHasNoReadPort : Obligations.KeyMaterialHasNoReadPort :=
  fun _ _ _ _ _ _ _ _ _ _ => rfl

end Sys2Proof.Machine

/-!
The host bus while no command runs: one equation for each access, what each register reads and stores, and the
fields of CONFIG and STATUS.
-/
namespace Sys2Proof.Machine

/-! ## The steps of the host's accesses -/

/-- The address of each register is allowed (R41, R75). -/
theorem accessOk_register {n : Nat} (hn : n < 32) : accessOk (8 * n) 8 = true := by
  simp only [accessOk, Bool.and_eq_true, decide_eq_true_eq]
  exact ⟨⟨trivial, Nat.mul_mod_right 8 n⟩, by omega⟩

theorem step_read {s : State} {n : Nat} {rest : List HostEvent} (hn : n < 32)
    (hp : s.pending = .read (8 * n) 8 :: rest) : step s = tick (hostRead n { s with pending := rest }) := by
  unfold step cycle
  rw [hp]
  simp only [accessOk_register hn, if_true, Nat.mul_div_cancel_left n (by decide : 0 < 8)]

theorem step_write {s : State} {n : Nat} {v : Word} {rest : List HostEvent} (hn : n < 32)
    (hp : s.pending = .write (8 * n) 8 v :: rest) : step s = hostWrite n v { s with pending := rest } := by
  unfold step cycle
  rw [hp]
  simp only [accessOk_register hn, if_true, Nat.mul_div_cancel_left n (by decide : 0 < 8)]

theorem step_idle {s : State} {rest : List HostEvent} (hp : s.pending = .idle :: rest) :
    step s = tick { s with pending := rest } := by
  unfold step cycle
  rw [hp]

/-- A read while no command runs has no effect but the value it returns (R77). -/
theorem hostRead_of_not_running {s : State} (h : s.running = none) (n : Nat) :
    hostRead n s = { s with got := s.readReg n :: s.got } := by
  unfold hostRead
  simp [busy_eq_false_iff.2 h]

theorem hostWrite_cmd_of_not_running {s : State} (h : s.running = none) (c : Word) :
    hostWrite 0 c s = startCommand c s := by
  unfold hostWrite
  simp [busy_eq_false_iff.2 h]

theorem hostWrite_of_not_running {s : State} (h : s.running = none) {n : Nat} (hn : n ≠ 0) (v : Word) :
    hostWrite n v s = .next (s.writeReg n v) := by
  unfold hostWrite
  simp [busy_eq_false_iff.2 h, hn]

section
variable {s : State} {n : Nat} {rest : List HostEvent}

theorem step_read_of_not_running (h : s.running = none) (hn : n < 32)
    (hp : s.pending = .read (8 * n) 8 :: rest) :
    step s = .next { s with pending := rest, got := s.readReg n :: s.got } := by
  rw [step_read hn hp, hostRead_of_not_running (s := { s with pending := rest }) h]
  exact tick_none h

theorem step_write_of_not_running {v : Word} (h : s.running = none) (hn : n < 32) (h0 : n ≠ 0)
    (hp : s.pending = .write (8 * n) 8 v :: rest) :
    step s = .next (State.writeReg { s with pending := rest } n v) :=
  (step_write hn hp).trans (hostWrite_of_not_running (s := { s with pending := rest }) h h0 v)

theorem step_cmd_of_not_running {c : Word} (h : s.running = none) (hp : s.pending = .write 0 8 c :: rest) :
    step s = startCommand c { s with pending := rest } :=
  (step_write (n := 0) (by decide) hp).trans
    (hostWrite_cmd_of_not_running (s := { s with pending := rest }) h c)

end

/-! ## What each register reads and stores -/

/-- CMD, the reserved slots and KEY have no read port (R49). -/
theorem readReg_of_no_port (s : State) {n : Nat} (hn : n = 0 ∨ (4 ≤ n ∧ n ≤ 7) ∨ (16 ≤ n ∧ n ≤ 23)) :
    s.readReg n = 0 := by
  unfold State.readReg
  rw [if_neg (by omega), if_neg (by omega), if_neg (by omega), if_neg (by omega), if_neg (by omega)]

theorem readReg_din (s : State) {n : Nat} (hn : 8 ≤ n ∧ n ≤ 15) : s.readReg n = Block.word s.din (n - 8) := by
  unfold State.readReg
  rw [if_neg (by omega), if_neg (by omega), if_neg (by omega), if_pos hn]

theorem readReg_dout (s : State) {n : Nat} (hn : 24 ≤ n ∧ n ≤ 31) :
    s.readReg n = Block.word s.state (n - 24) := by
  unfold State.readReg
  rw [if_neg (by omega), if_neg (by omega), if_neg (by omega), if_neg (by omega), if_pos hn]

/-- Only DIN and KEY store what is written to them (R49). -/
theorem writeReg_of_no_port (s : State) {n : Nat} (v : Word) (hn : n < 8 ∨ 24 ≤ n) : s.writeReg n v = s := by
  unfold State.writeReg
  rw [if_neg (by omega), if_neg (by omega)]

/-- A write stores in the one word of DIN that the register is, if it is one (R46). -/
theorem word_writeReg_din (s : State) (n : Nat) (v : Word) {i : Nat} (hi : i < 8) :
    Block.word (s.writeReg n v).din i = if n = 8 + i then v else Block.word s.din i := by
  unfold State.writeReg
  split
  · rw [Block.word_setIfInBounds]
    exact if_congr (by omega) rfl rfl
  · rw [if_neg (c := n = 8 + i) (by omega)]
    split <;> rfl

/-- A write stores in the one word of KEY that the register is, if it is one (R47). -/
theorem word_writeReg_key (s : State) (n : Nat) (v : Word) {i : Nat} (hi : i < 8) :
    Block.word (s.writeReg n v).key i = if n = 16 + i then v else Block.word s.key i := by
  unfold State.writeReg
  split
  · rw [if_neg (c := n = 16 + i) (by omega)]
  · split
    · rw [Block.word_setIfInBounds]
      exact if_congr (by omega) rfl rfl
    · rw [if_neg (c := n = 16 + i) (by omega)]

/-- Settles O46: the value is the register's read, port by port. -/
theorem hostReadMap : Obligations.HostReadMap := by
  intro s n rest hn h hp
  refine ⟨s.readReg n, step_read_of_not_running h hn hp, fun h0 => ?_, ?_, ?_, ?_, fun h4 h7 => ?_,
    fun h8 h15 => readReg_din s ⟨h8, h15⟩, fun h16 h23 => ?_, fun h24 => readReg_dout s ⟨h24, by omega⟩⟩
  · exact readReg_of_no_port s (.inl h0)
  · rintro rfl
    rfl
  · rintro rfl
    rfl
  · rintro rfl
    rfl
  · exact readReg_of_no_port s (.inr (.inl ⟨h4, h7⟩))
  · exact readReg_of_no_port s (.inr (.inr ⟨h16, h23⟩))

/-- Settles O47: a read changes no register, so the second read returns what the first did. -/
theorem hostAccessEffects : Obligations.HostAccessEffects := by
  intro s n v rest hn h
  refine ⟨fun hp => ⟨?_, fun h0 => ?_⟩, fun hp => ?_⟩
  · rintro rfl
    exact step_cmd_of_not_running h hp
  · refine ⟨_, _, (step_write_of_not_running h hn h0 hp).trans
      (congrArg _ (State.writeReg_eq { s with pending := rest } n v)), fun i hi => ?_, fun i hi => ?_⟩
    · exact word_writeReg_din { s with pending := rest } n v hi
    · exact word_writeReg_key { s with pending := rest } n v hi
  · exact ⟨_, _, step_read_of_not_running h hn hp, step_read_of_not_running h hn rfl⟩

/-- Settles O48: such a register has no read port, or no write port. -/
theorem reservedAndOneWayRegisters : Obligations.ReservedAndOneWayRegisters := by
  intro s n rest hn h
  refine ⟨fun hread hp => ?_, fun v hwrite hp => ?_⟩
  · rw [step_read_of_not_running h hn hp, readReg_of_no_port s (by omega)]
  · rw [step_write_of_not_running h hn (by omega) hp, writeReg_of_no_port _ v (by omega)]

/-! ## The step of a command word -/

/-- A word that decodes runs as its command (R107). -/
theorem runCommand_of_decode {c : Word} {i : Instr} (h : decode c = .ok i) (s : State) :
    runCommand c s = exec i s := by
  unfold runCommand
  rw [h]

theorem decode_of_decodeTableWord {nbits w : Nat} {i : Instr} (h : decodeTableWord nbits w = some i) :
    decode (tableWord nbits w) = .ok i := by
  unfold decodeTableWord at h
  split at h
  · cases h
    assumption
  · cases h

/-- At latency 0 a CMD write is the whole command (R30). -/
theorem startCommand_of_latency_zero {c : Word} {s : State} (h : s.latencyOf c = 0) :
    startCommand c s = runCommand c s := by
  unfold startCommand
  rw [if_pos h]

theorem startCommand_of_latency_pos {c : Word} {s : State} (h : s.latencyOf c ≠ 0) :
    startCommand c s = .next { s with running := some ⟨c, s.latencyOf c⟩ } := by
  unfold startCommand
  rw [if_neg h]

/-- In the last cycle of a running command its effects happen (R384). -/
theorem tick_last {s : State} {c : Word} (h : s.running = some ⟨c, 1⟩) :
    tick s = runCommand c { s with running := none } := by
  unfold tick
  rw [h]
  rfl

/-- Settles O6, from the step of a CMD write and the engine's last cycle. -/
theorem stepRunsTheCommandWord : Obligations.StepRunsTheCommandWord := by
  refine ⟨fun s c rest i h hp hc => ⟨fun h0 => ?_, fun h0 => ?_⟩, fun s c rest i h hp hc => ?_,
    fun s nbits w i hi => ?_⟩
  · exact (step_cmd_of_not_running h hp).trans
      ((startCommand_of_latency_zero (s := { s with pending := rest }) h0).trans (runCommand_of_decode hc _))
  · exact (step_cmd_of_not_running h hp).trans (startCommand_of_latency_pos h0)
  · exact (step_idle hp).trans
      ((tick_last (s := { s with pending := rest }) h).trans (runCommand_of_decode hc _))
  · exact (step_cmd_of_not_running rfl rfl).trans
      ((startCommand_of_latency_zero rfl).trans (runCommand_of_decode (decode_of_decodeTableWord hi) _))

/-! ## The fields of CONFIG and STATUS -/

/-- A field of a word is the w-bit part b of its number, between the parts a below and d above it. -/
theorem field_of_toNat_eq {c : Word} {hi lo b : Nat} (w a d : Nat) (hw : hi - lo + 1 = w)
    (hc : c.toNat = a + 2 ^ lo * (b + 2 ^ w * d)) (ha : a < 2 ^ lo) (hb : b < 2 ^ w) : field c hi lo = b := by
  rw [field_eq, hw, hc, Nat.add_mul_div_left _ _ (Nat.two_pow_pos lo), Nat.div_eq_of_lt ha, Nat.zero_add,
    Nat.add_mul_mod_self_left, Nat.mod_eq_of_lt hb]

/-- The number CONFIG reads as with a context: the fields do not overflow the word (R44). -/
theorem toNat_configWord {s : State} (h : s.lc ≠ .none) :
    s.configWord.toNat = s.nb.toNat + s.nk.toNat * 2 ^ 8 + s.nr.toNat * 2 ^ 16 + 64 * s.nb.toNat * 2 ^ 32
      + 64 * s.nk.toNat * 2 ^ 48 := by
  have hnb := s.nb.isLt
  have hnk := s.nk.isLt
  have hnr := s.nr.isLt
  unfold State.configWord
  split
  · exact absurd ‹_› h
  all_goals
    rw [BitVec.toNat_ofNat]
    omega

/-- Settles O10: each field of the number CONFIG reads as. -/
theorem configRegisterFields : Obligations.ConfigRegisterFields := by
  refine ⟨fun s h => ?_, fun s h => ?_, fun s v h => ?_⟩
  · show s.configWord = 0
    unfold State.configWord
    rw [h]
  · have hnb := s.nb.isLt
    have hnk := s.nk.isLt
    have hnr := s.nr.isLt
    have hc : (s.readReg 2).toNat = _ := toNat_configWord h
    generalize s.nb.toNat = B, s.nk.toNat = K, s.nr.toNat = R at *
    refine ⟨field_of_toNat_eq 8 0 (K + 2 ^ 8 * R + 2 ^ 24 * (64 * B) + 2 ^ 40 * (64 * K)) rfl ?_ ?_ ?_,
      field_of_toNat_eq 8 B (R + 2 ^ 16 * (64 * B) + 2 ^ 32 * (64 * K)) rfl ?_ ?_ ?_,
      field_of_toNat_eq 8 (B + 2 ^ 8 * K) (2 ^ 8 * (64 * B) + 2 ^ 24 * (64 * K)) rfl ?_ ?_ ?_,
      field_of_toNat_eq 8 (B + 2 ^ 8 * K + 2 ^ 16 * R) (64 * B + 2 ^ 16 * (64 * K)) rfl ?_ ?_ ?_,
      field_of_toNat_eq 16 (B + 2 ^ 8 * K + 2 ^ 16 * R) (64 * K) rfl ?_ ?_ ?_,
      field_of_toNat_eq 16 (B + 2 ^ 8 * K + 2 ^ 16 * R + 2 ^ 32 * (64 * B)) 0 rfl ?_ ?_ ?_⟩ <;>
      omega
  · rw [hostWrite_of_not_running h (by decide), writeReg_of_no_port s v (by decide)]

theorem Lifecycle.code_lt (lc : Lifecycle) : lc.code < 4 := by
  cases lc <;> decide

theorem ErrorCode.code_lt (e : ErrorCode) : e.code < 256 := by
  cases e <;> decide

/-- Each part of STATUS fits its field (R43). -/
theorem statusParts_lt (s : State) :
    s.busy.toNat < 2 ∧ s.errSeen.toNat < 2 ∧ s.lc.code < 4 ∧ s.protoErr.toNat < 2 ∧ s.lastErr.code < 256 :=
  ⟨s.busy.toNat_lt, s.errSeen.toNat_lt, s.lc.code_lt, s.protoErr.toNat_lt, s.lastErr.code_lt⟩

/-- The number STATUS reads as: the fields do not overflow the word (R43). -/
theorem toNat_statusWord (s : State) :
    s.statusWord.toNat = s.busy.toNat + s.errSeen.toNat * 2 ^ 1 + s.lc.code * 2 ^ 2 + s.protoErr.toNat * 2 ^ 4
      + s.lastErr.code * 2 ^ 8 := by
  obtain ⟨hbusy, hseen, hlc, hproto, herr⟩ := statusParts_lt s
  unfold State.statusWord
  rw [BitVec.toNat_ofNat]
  omega

/-- Settles O11: each field of the number STATUS reads as. -/
theorem statusRegisterFields : Obligations.StatusRegisterFields := by
  intro s
  obtain ⟨hbusy, hseen, hlc, hproto, herr⟩ := statusParts_lt s
  have ite_eq : ∀ b : Bool, (if b then 1 else 0) = b.toNat := by decide
  have busy : (if s.running = none then 0 else 1) = s.busy.toNat := by
    unfold State.busy
    cases s.running <;> rfl
  simp only [field_eq, toNat_statusWord, Nat.reducePow, Nat.reduceSub, Nat.reduceAdd, busy,
    ite_eq]
  refine ⟨by omega, by omega, ?_, by omega, by omega, ?_, by omega⟩
  · trans s.lc.code
    · omega
    · cases s.lc <;> rfl
  · trans s.lastErr.code
    · omega
    · cases s.lastErr <;> rfl

end Sys2Proof.Machine

/-!
KEY_EXPAND leaves its last even key in STATE (R289): stage 2 ends with the step that writes RK[NR], and stage 3
writes odd keys alone.
-/
namespace Sys2Proof.Machine

/-- An even step leaves in STATE the key it writes (R284). -/
theorem word_state_evenStep (p : Params) {nb idx : Nat} (lo : Nat) (k : Sched) {i : Nat} (h19 : idx < 19)
    (hi : i < nb) :
    Block.word (evenStep p nb idx lo k).state i = rkWord (evenStep p nb idx lo k).rk idx i := by
  rw [rkWord_evenStep, if_pos ⟨rfl, h19, hi⟩]

/-- The even loop ends with the step that writes RK[nr] (R284). -/
theorem word_state_evenLoop (p : Params) {nb nk nr : Nat} (hnr : nr % 2 = 0) (h19 : nr < 19) {i : Nat}
    (hi : i < nb) :
    ∀ (n idx : Nat) (k : Sched), idx % 2 = 0 → idx ≤ nr → nr < idx + 2 * n →
      Block.word (evenLoop p nb nk nr n idx k).state i = rkWord (evenLoop p nb nk nr n idx k).rk nr i := by
  intro n
  induction n with
  | zero => intro idx k _ _ _; omega
  | succ n ih =>
    intro idx k he hle hlt
    simp only [evenLoop]
    split
    · subst idx
      exact word_state_evenStep p 0 k h19 hi
    · split
      · exact ih _ _ (by omega) (by omega) (by omega)
      · split
        · subst nr
          exact word_state_evenStep p nb _ h19 hi
        · exact ih _ _ (by omega) (by omega) (by omega)

/-- Stage 3 leaves STATE and RK[nr] as stage 2 left them, since nr is even (R287). -/
theorem word_state_keySchedule (p : Params) {nb nk nr : Nat} (hnr : nr % 2 = 0) (h19 : nr < 19) (key : Block)
    (rk : RkFile) {i : Nat} (hi : i < nb) :
    Block.word (keySchedule p nb nk nr key rk).state i = rkWord (keySchedule p nb nk nr key rk).rk nr i := by
  rw [keySchedule_eq, oddLoop_frame _ _ _ (by omega)]
  exact word_state_evenLoop p hnr h19 hi 10 0 _ rfl (by omega) (by omega)

/-- KEY_EXPAND with a context completes with the registers of its stages (R281). -/
theorem exec_keyExpand {s : State} (h : s.lc ≠ .none) :
    exec .keyExpand s = .next (expanded (scheduleOf s) s) :=
  guarded_of_allowed (o := .keyExpand) _ (allows_context_iff.2 h)

/-- Settles O35, from the last even step of the schedule. -/
theorem stateAfterKeyExpandIsLastKey : Obligations.StateAfterKeyExpandIsLastKey := by
  intro s t hlc hconf ht i hi
  cases (exec_keyExpand hlc).symm.trans ht
  obtain ⟨-, -, -, heven, -, h19⟩ := configured_cases hconf
  have hi8 : i < 8 := hi.trans_le (cols_le_eight hconf)
  have last : Block.word (expanded (scheduleOf s) s).state i =
      Block.word (RkFile.block (expanded (scheduleOf s) s).rk (expanded (scheduleOf s) s).nr.toNat) i :=
    ((word_putState s _ i).trans (if_pos hi)).trans (word_state_keySchedule s.params heven h19 s.keyIn s.rk hi)
  refine ⟨last, ?_⟩
  rw [readReg_dout _ (by omega), Nat.add_sub_cancel_left, last]

end Sys2Proof.Machine

/-!
The polling host (R387): no command reads the latency table, so a command on the timed block and on the block
with latency 0 has the same effects, and a polling host makes no access before they have happened.
-/
namespace Sys2Proof.Machine

open Sys2Proof.Claims

/-! ## No command reads the latency table -/

/-- The parameters with the empty latency table, those of the atomic model. -/
def untimed (p : Params) : Params := { p with lat := [] }

theorem encRounds_untimed (p : Params) (nb : Nat) (rk : RkFile) (n r : Nat) (S : Block) :
    encRounds (untimed p) nb rk n r S = encRounds p nb rk n r S := by
  induction n generalizing r S with
  | zero => rfl
  | succ n ih => exact ih _ _

theorem decRounds_untimed (p : Params) (nb : Nat) (rk : RkFile) (n : Nat) (S : Block) :
    decRounds (untimed p) nb rk n S = decRounds p nb rk n S := by
  induction n generalizing S with
  | zero => rfl
  | succ n ih => exact ih _

theorem encipherBlock_untimed (p : Params) (nb nr : Nat) (rk : RkFile) (P : Block) :
    encipherBlock (untimed p) nb nr rk P = encipherBlock p nb nr rk P := by
  simp only [encipherBlock, encRounds_untimed]
  rfl

theorem decipherBlock_untimed (p : Params) (nb nr : Nat) (rk : RkFile) (C : Block) :
    decipherBlock (untimed p) nb nr rk C = decipherBlock p nb nr rk C := by
  simp only [decipherBlock, decRounds_untimed]
  rfl

theorem evenStep_untimed (p : Params) (nb idx lo : Nat) (k : Sched) :
    evenStep (untimed p) nb idx lo k = evenStep p nb idx lo k := rfl

theorem evenLoop_untimed (p : Params) (nb nk nr n idx : Nat) (k : Sched) :
    evenLoop (untimed p) nb nk nr n idx k = evenLoop p nb nk nr n idx k := by
  induction n generalizing idx k with
  | zero => rfl
  | succ n ih =>
    simp only [evenLoop, evenStep_untimed, ih]
    rfl

theorem keySchedule_untimed (p : Params) (nb nk nr : Nat) (key : Block) (rk : RkFile) :
    keySchedule (untimed p) nb nk nr key rk = keySchedule p nb nk nr key rk := by
  rw [keySchedule_eq, keySchedule_eq, evenLoop_untimed]
  rfl

/-- The next state of an outcome on the block with latency 0. -/
def atomicResult : Result → Result
  | .next t => .next (atomic t)
  | .fault r => .fault r
  | .refused r => .refused r

theorem guarded_atomic (o : Op) (s : State) (r : Result) :
    guarded o (atomic s) (atomicResult r) = atomicResult (guarded o s r) := by
  change (if o.requires.allows s.lc then atomicResult r else raise .invalidState (atomic s)) =
    atomicResult (if o.requires.allows s.lc then r else raise .invalidState s)
  split <;> rfl

/-- A guarded command has the same effects on both blocks if its unguarded meaning has. -/
theorem exec_atomic_of_guarded {i : Instr} {s : State} {r : State → Result}
    (h : ∀ s, exec i s = guarded i.op s (r s)) (hr : r (atomic s) = atomicResult (r s)) :
    exec i (atomic s) = atomicResult (exec i s) := by
  rw [h, h, hr, guarded_atomic]

/-- The check of a round-key index passes on both blocks or on neither. -/
theorem range_atomic (s : State) (j : Nat) {r r' : Result} (h : r' = atomicResult r) :
    (if (atomic s).indexOutOfRange j then raise .range (atomic s) else r') =
      atomicResult (if s.indexOutOfRange j then raise .range s else r) := by
  subst h
  change (if s.indexOutOfRange j then raise .range (atomic s) else atomicResult r) = _
  split <;> rfl

/-- Every command has the same effects on the block with latency 0. -/
theorem exec_atomic (i : Instr) (s : State) : exec i (atomic s) = atomicResult (exec i s) := by
  cases i with
  | init blk keyb =>
    refine exec_atomic_of_guarded (fun _ => rfl) ?_
    cases Conf.ofSizes blk keyb <;> rfl
  | keyExpand =>
    refine exec_atomic_of_guarded (fun _ => rfl) ?_
    have same : scheduleOf (atomic s) = scheduleOf s := keySchedule_untimed s.params _ _ _ _ _
    exact congrArg (fun k => Host.Outcome.next (expanded k (atomic s))) same
  | encipher =>
    refine exec_atomic_of_guarded (fun _ => rfl) ?_
    exact congrArg (fun v => complete ((atomic s).putState v)) (encipherBlock_untimed s.params _ _ _ _)
  | decipher =>
    refine exec_atomic_of_guarded (fun _ => rfl) ?_
    exact congrArg (fun v => complete ((atomic s).putState v)) (decipherBlock_untimed s.params _ _ _ _)
  | addRk j => exact exec_atomic_of_guarded (fun _ => rfl) (range_atomic s j rfl)
  | subRk j => exact exec_atomic_of_guarded (fun _ => rfl) (range_atomic s j rfl)
  | xorRk j => exact exec_atomic_of_guarded (fun _ => rfl) (range_atomic s j rfl)
  | _ => exact exec_atomic_of_guarded (fun _ => rfl) rfl

theorem runCommand_atomic {c : Word} {s t : State} (h : runCommand c s = .next t) :
    runCommand c (atomic s) = .next (atomic t) := by
  have same : runCommand c (atomic s) = atomicResult (runCommand c s) := by
    unfold runCommand
    split
    · exact exec_atomic _ s
    · rfl
  rw [same, h]
  rfl

theorem writeReg_atomic (s : State) (n : Nat) (v : Word) :
    (atomic s).writeReg n v = atomic (s.writeReg n v) := by
  unfold State.writeReg
  split
  · rfl
  · split <;> rfl

/-! ## The polling host -/

@[simp] theorem writeReg_pending (s : State) (n : Nat) (v : Word) : (s.writeReg n v).pending = s.pending := by
  rw [State.writeReg_eq]

/-- What a command word leaves of the engine and of the host's accesses: no command starts another, and none
makes an access. -/
theorem runCommand_running_pending {c : Word} {s t : State} (h : runCommand c s = .next t) :
    t.running = s.running ∧ t.pending = s.pending := by
  rcases runCommand_cases h with ⟨i, -, hi⟩ | rfl
  · obtain ⟨-, -, -, -, hrunning, hpending, -⟩ := whatNoCommandChanges i s t hi
    exact ⟨hrunning, hpending⟩
  · exact ⟨rfl, rfl⟩

theorem step_poll_of_running {s : State} {r : Running} {rest : List HostEvent} (h : s.running = some r)
    (hp : s.pending = .poll :: rest) : step s = tick s := by
  have hb : s.busy = true := by
    unfold State.busy
    rw [h]
    rfl
  unfold step cycle
  simp only [hp, hb, if_true]

theorem step_poll_of_not_running {s : State} {rest : List HostEvent} (h : s.running = none)
    (hp : s.pending = .poll :: rest) :
    step s = .next { s with pending := rest, got := s.statusWord :: s.got } := by
  have read : step s = tick (hostRead 1 { s with pending := rest }) := by
    unfold step cycle
    simp [hp, busy_eq_false_iff.2 h]
  rw [read, hostRead_of_not_running (s := { s with pending := rest }) h]
  exact tick_none h

/-- A poll repeats until the running command has had its effects (R113, R384). -/
theorem core_run_poll {c : Word} {rest : List HostEvent} {t : State} :
    ∀ (k : Nat) (s : State), s.running = some ⟨c, k + 1⟩ → s.pending = .poll :: rest →
      runCommand c { s with running := none } = .next t → Sys2Proof.core.run (k + 1) s = .next t := by
  intro k
  induction k with
  | zero =>
    intro s hr hp ht
    rw [core_run_succ 0 ((step_poll_of_running hr hp).trans ((tick_last hr).trans ht)), core_run_zero]
  | succ k ih =>
    intro s hr hp ht
    have counts : tick s = .next { s with running := some ⟨c, k + 1⟩ } := by
      unfold tick
      simp [hr]
    rw [core_run_succ _ ((step_poll_of_running hr hp).trans counts)]
    exact ih _ rfl hp ht

/-- From a CMD write on, a poll waits for the effects of the command, whatever its latency is. -/
theorem core_run_startCommand {c : Word} {s t : State} {rest : List HostEvent} (h : s.running = none)
    (hp : s.pending = .write 0 8 c :: .poll :: rest)
    (ht : runCommand c { s with pending := .poll :: rest } = .next t) :
    ∃ n, Sys2Proof.core.run n s = .next t := by
  have start := step_cmd_of_not_running h hp
  rcases startCommand_cases c { s with pending := .poll :: rest } with ⟨-, e⟩ | ⟨hl, e⟩
  · exact ⟨1, core_run_succ 0 (start.trans (e.trans ht))⟩
  · obtain ⟨k, hk⟩ := Nat.exists_eq_add_of_lt hl
    rw [Nat.zero_add] at hk
    refine ⟨k + 1 + 1, (core_run_succ _ (start.trans e)).trans (core_run_poll (c := c) k _ ?_ rfl ?_)⟩
    · rw [hk]
    · rw [← ht, ← h]

/-- The timed run from s and the atomic run of m steps both come to u, where no command runs and the host's
accesses are `rest`. -/
def MeetsAtomic (s : State) (m : Nat) (rest : List HostEvent) (u : State) : Prop :=
  (∃ n, Sys2Proof.core.run n s = .next u) ∧ Sys2Proof.core.run m (atomic s) = .next (atomic u) ∧
    u.running = none ∧ u.pending = rest

theorem meetsAtomic_of_step {s u : State} {rest : List HostEvent} (h : step s = .next u)
    (h' : step (atomic s) = .next (atomic u)) (hr : u.running = none) (hp : u.pending = rest) :
    MeetsAtomic s 1 rest u :=
  ⟨⟨1, core_run_succ 0 h⟩, core_run_succ 0 h', hr, hp⟩

/-- What a polling host does first. -/
theorem politeEvents_cons (op : PoliteOp) (ops : List PoliteOp) :
    politeEvents (op :: ops) = politeEvents [op] ++ politeEvents ops := by
  cases op <;> rfl

/-- A command with its poll: the command's effects, then the value of STATUS. -/
theorem meetsAtomic_command {s : State} {c : Word} {rest : List HostEvent} (h : s.running = none)
    (hp : s.pending = .write 0 8 c :: .poll :: rest) : ∃ u, MeetsAtomic s 2 rest u := by
  obtain ⟨t, ht⟩ := runCommand_next c { s with pending := .poll :: rest }
  obtain ⟨hrunning, hpending⟩ := runCommand_running_pending ht
  obtain ⟨n, hn⟩ := core_run_startCommand h hp ht
  have hnone : t.running = none := hrunning.trans h
  have poll := step_poll_of_not_running hnone hpending
  have write : step (atomic s) = .next (atomic t) :=
    (step_cmd_of_not_running (s := atomic s) h hp).trans
      ((startCommand_of_latency_zero rfl).trans (runCommand_atomic ht))
  refine ⟨_, ⟨n + 1, (core_run_add n 1 hn).trans (core_run_succ 0 poll)⟩, ?_, hnone, rfl⟩
  rw [core_run_succ 1 write]
  exact core_run_succ 0 (step_poll_of_not_running (s := atomic t) hnone hpending)

/-- What the host does for one operation leaves the timed block where it leaves the atomic one. -/
theorem meetsAtomic_politeOp (op : PoliteOp) {s : State} {rest : List HostEvent} (h : s.running = none)
    (hp : s.pending = politeEvents [op] ++ rest) :
    ∃ u, MeetsAtomic s (politeEvents [op]).length rest u := by
  cases op with
  | command c => exact meetsAtomic_command h hp
  | read n =>
    exact ⟨_, meetsAtomic_of_step (step_read_of_not_running h n.isLt hp)
      (step_read_of_not_running (s := atomic s) h n.isLt hp) h rfl⟩
  | write n hn v =>
    have hn0 : n.val ≠ 0 := fun h0 => hn (Fin.ext h0)
    exact ⟨_, meetsAtomic_of_step (step_write_of_not_running h n.isLt hn0 hp)
      ((step_write_of_not_running (s := atomic s) h n.isLt hn0 hp).trans
        (congrArg _ (writeReg_atomic { s with pending := rest } n v))) ((writeReg_running _ _ _).trans h)
      (writeReg_pending _ _ _)⟩
  | wait =>
    exact ⟨_, meetsAtomic_of_step ((step_idle hp).trans (tick_none h))
      ((step_idle (s := atomic s) hp).trans (tick_none h)) h rfl⟩

/-- Settles O53, by induction on what the host does. -/
theorem pollingHostSeesAtomicModel : Obligations.PollingHostSeesAtomicModel := by
  intro ops
  induction ops with
  | nil => exact fun s h hp => ⟨0, s, rfl, ⟨hp, h⟩, rfl⟩
  | cons op ops ih =>
    intro s h hp
    rw [politeEvents_cons] at hp ⊢
    obtain ⟨u, ⟨n, hn⟩, hatomic, hu, hpu⟩ := meetsAtomic_politeOp op h hp
    obtain ⟨m, t, hm, hended, hrest⟩ := ih u hu hpu
    refine ⟨n + m, t, (core_run_add n m hn).trans hm, hended, ?_⟩
    rw [List.length_append, core_run_add _ _ hatomic, hrest]

end Sys2Proof.Machine

/-!
Which accesses of the host have a step (R75).
-/
namespace Sys2Proof.Machine

theorem accessOk_eq_false_iff {addr width : Nat} :
    accessOk addr width = false ↔ ¬ (width = 8 ∧ addr % 8 = 0 ∧ addr ≤ 0xF8) := by
  rw [← Bool.not_eq_true]
  simp only [accessOk, Bool.and_eq_true, decide_eq_true_eq, and_assoc]

/-- An aligned address up to 0xF8 is that of a register (R41, R75). -/
theorem exists_register {addr : Nat} (aligned : addr % 8 = 0) (hle : addr ≤ 0xF8) :
    ∃ n, n < 32 ∧ addr = 8 * n :=
  ⟨addr / 8, by omega, by omega⟩

/-- A host write always answers a next state. -/
theorem hostWrite_next (n : Nat) (v : Word) (s : State) : ∃ t, hostWrite n v s = .next t := by
  rcases hostWrite_cases n v s with ⟨-, h⟩ | ⟨-, -, h⟩ | ⟨-, -, h⟩ <;> rw [h]
  · exact tick_next _
  · rcases startCommand_cases v s with ⟨-, e⟩ | ⟨-, e⟩ <;> rw [e]
    · exact runCommand_next v s
    · exact ⟨_, rfl⟩
  · exact ⟨_, rfl⟩

section
variable {s : State} {addr width : Nat} {v : Word} {rest : List HostEvent}

theorem step_access_refused (hbad : accessOk addr width = false)
    (hp : s.pending = .read addr width :: rest ∨ s.pending = .write addr width v :: rest) :
    step s = .refused (.badAccess addr width) := by
  unfold step cycle
  rcases hp with hp | hp <;> simp [hp, hbad]

theorem step_access_next {n : Nat} (hn : n < 32)
    (hp : s.pending = .read (8 * n) 8 :: rest ∨ s.pending = .write (8 * n) 8 v :: rest) :
    ∃ t, step s = .next t := by
  rcases hp with hp | hp
  · rw [step_read hn hp]
    exact tick_next _
  · rw [step_write hn hp]
    exact hostWrite_next n v _

end

/-- Settles O49: the refused accesses are those of no register, and an access of a register has a step. -/
theorem otherAccessesHaveNoStep : Obligations.OtherAccessesHaveNoStep := by
  intro s addr width v rest hp
  constructor
  · intro hbad
    exact step_access_refused (accessOk_eq_false_iff.2 hbad) hp
  · rintro ⟨rfl, aligned, hle⟩
    obtain ⟨n, hn, rfl⟩ := exists_register aligned hle
    exact step_access_next hn hp

end Sys2Proof.Machine

/-!
The command encoding: what the decoder answers for a word of each row of the opcode map and for a reserved opcode
value, and that encoding and decoding undo each other (R101 to R111).
-/
namespace Sys2Proof

/-! ## The decoder, row by row -/

/-- The opcode is the low byte of the word (R101). -/
theorem field_opcode (c : Word) : field c 7 0 = c.toNat % 256 := by
  simpa using field_eq c 7 0

/-- A word of a row of the opcode map decodes exactly if it matches the row under its mask (R107). -/
theorem decode_of_opcode {c : Word} {o : Op} (h : c.toNat % 256 = o.code) :
    decode c = if c &&& ~~~ o.format.freemask = BitVec.ofNat 64 o.code then .ok (o.operands c)
      else .error .reservedBit := by
  unfold decode
  rw [field_opcode, h, Op.ofCode_code]

/-- A word decodes to the operands of its row, which it matches under the row's mask. -/
theorem row_of_decode {c : Word} {i : Instr} (h : decode c = .ok i) :
    ∃ o : Op, c &&& ~~~ o.format.freemask = BitVec.ofNat 64 o.code ∧ o.operands c = i := by
  unfold decode at h
  split at h
  · cases h
  next o _ =>
    split at h
    next hmatch => exact ⟨o, hmatch, Except.ok.inj h⟩
    next => cases h

/-- A word matches its row exactly if it is the opcode and the operand fields, and nothing else (R107). -/
theorem masked_iff_toNat (o : Op) (c : Word) :
    c &&& ~~~ o.format.freemask = BitVec.ofNat 64 o.code ↔ c.toNat = o.code + (o.operands c).fields := by
  have hc := c.isLt
  cases o with
  | init =>
    refine (masked_i (Op.code_lt _)).trans ?_
    simp only [Op.code, Op.operands, Instr.fields, field_eq]
    omega
  | addRk | subRk | xorRk =>
    refine (masked_r (Op.code_lt _)).trans ?_
    simp only [Op.code, Op.operands, Instr.fields, field_eq]
    omega
  | gfMul =>
    refine (masked_g (Op.code_lt _)).trans ?_
    simp only [Op.code, Op.operands, Instr.fields, field_eq]
    omega
  | sbox | invSbox =>
    refine (masked_t (Op.code_lt _)).trans ?_
    simp only [Op.code, Op.operands, Instr.fields, field_eq]
    omega
  | teardown | keyExpand | encipher | decipher | loadState | subBytes | invSubBytes | shiftRows | invShiftRows
  | mixColumns | invMixColumns | encRound | decRound | addDin | xorDin => exact masked_n (Op.code_lt _)

/-- A word is rejected for its opcode exactly if no row has its low byte (R109). -/
theorem decode_eq_reservedOpcode_iff (c : Word) :
    decode c = .error .reservedOpcode ↔ Op.ofCode (c.toNat % 256) = none := by
  cases h : Op.ofCode (c.toNat % 256) with
  | none => simp [decode, field_opcode, h]
  | some o =>
    rw [decode_of_opcode (Op.code_of_ofCode h).symm]
    split <;> simp

/-- The values between the rows of R108 have no row (R109). -/
theorem Op.ofCode_eq_none_iff (n : Nat) :
    Op.ofCode n = none ↔ n = 0x00 ∨ (0x06 ≤ n ∧ n ≤ 0x0F) ∨ (0x19 ≤ n ∧ n ≤ 0x1F) ∨ (0x25 ≤ n ∧ n ≤ 0x2F) ∨
      0x33 ≤ n := by
  simp only [Op.ofCode, Op.all, List.find?_eq_none, List.forall_mem_cons, Op.code, beq_iff_eq]
  constructor
  · intro h
    by_contra hn
    have hlt : n < 0x33 := by omega
    interval_cases n <;> simp_all
  · intro h
    simp only [List.not_mem_nil, false_implies, implies_true, and_true]
    omega

/-! ## Encoding -/

/-- The operand fields stand above the opcode byte (R101). -/
theorem fields_mod_256 (i : Instr) : i.fields % 256 = 0 := by
  cases i <;> simp only [Instr.fields] <;> omega

theorem encode_opcode {i : Instr} (h : i.wf = true) : (encode i).toNat % 256 = i.op.code := by
  rw [toNat_encode h, Nat.add_mod, fields_mod_256, Nat.add_zero, Nat.mod_mod, Nat.mod_eq_of_lt i.op.code_lt]

theorem operands_encode (i : Instr) : Laws.Operands.Statement i := by
  cases i with
  | init blk keyb => exact Laws.Operands.init blk keyb
  | addRk j => exact Laws.Operands.addRk j
  | subRk j => exact Laws.Operands.subRk j
  | xorRk j => exact Laws.Operands.xorRk j
  | gfMul a b => exact Laws.Operands.gfMul a b
  | sbox t x => exact Laws.Operands.sbox t x
  | invSbox t x => exact Laws.Operands.invSbox t x
  | teardown | keyExpand | encipher | decipher | loadState | subBytes | invSubBytes | shiftRows | invShiftRows
  | mixColumns | invMixColumns | encRound | decRound | addDin | xorDin => exact fun _ => rfl

theorem masked_encode {i : Instr} (h : i.wf = true) :
    encode i &&& ~~~ i.op.format.freemask = BitVec.ofNat 64 i.op.code :=
  (masked_iff_toNat _ _).2 <| by rw [operands_encode i h, toNat_encode h]

theorem decode_encode {i : Instr} (h : i.wf = true) : decode (encode i) = .ok i := by
  rw [decode_of_opcode (encode_opcode h), if_pos (masked_encode h), operands_encode i h]

theorem decode_of_encode_eq {i : Instr} {c : Word} (hw : i.wf = true) (h : encode i = c) : decode c = .ok i :=
  h ▸ decode_encode hw

/-! ## The command of a word -/

theorem op_operands (o : Op) (c : Word) : (o.operands c).op = o := by
  cases o <;> rfl

theorem field_lt (c : Word) (hi lo : Nat) : field c hi lo < 2 ^ (hi - lo + 1) :=
  Nat.mod_lt _ (Nat.two_pow_pos _)

/-- Each operand is read from its own field, so it fits (R111, R112). -/
theorem wf_operands (o : Op) (c : Word) : (o.operands c).wf = true := by
  cases o with
  | init => simpa only [Op.operands, Instr.wf, Bool.and_eq_true, decide_eq_true_eq] using
      ⟨field_lt c 47 32, field_lt c 63 48⟩
  | addRk | subRk | xorRk => exact decide_eq_true (field_lt c 15 8)
  | gfMul => simpa only [Op.operands, Instr.wf, Bool.and_eq_true, decide_eq_true_eq] using
      ⟨field_lt c 23 16, field_lt c 31 24⟩
  | sbox | invSbox => simpa only [Op.operands, Instr.wf, Bool.and_eq_true, decide_eq_true_eq] using
      ⟨field_lt c 9 8, field_lt c 23 16⟩
  | teardown | keyExpand | encipher | decipher | loadState | subBytes | invSubBytes | shiftRows | invShiftRows
  | mixColumns | invMixColumns | encRound | decRound | addDin | xorDin => rfl

theorem encode_operands {o : Op} {c : Word} (h : c &&& ~~~ o.format.freemask = BitVec.ofNat 64 o.code) :
    encode (o.operands c) = c :=
  BitVec.eq_of_toNat_eq <| by
    rw [toNat_encode (wf_operands o c), op_operands, ← (masked_iff_toNat o c).1 h]

/-- Settles O2: the encoding has its command's opcode, matches the row's mask and holds the operands. -/
theorem encodedCommandDecodesBack : Obligations.EncodedCommandDecodesBack := fun _ => decode_encode

/-- Settles O3: a word that decodes matches its row, so it is the opcode and the fields its operands are. -/
theorem decodedWordIsItsEncoding : Obligations.DecodedWordIsItsEncoding := by
  intro c i h
  obtain ⟨o, hmatch, rfl⟩ := row_of_decode h
  exact ⟨wf_operands o c, encode_operands hmatch⟩

end Sys2Proof

/-!
What the block does with a command word it rejects, with the example words of R115 and with a round-key index
past NR.
-/
namespace Sys2Proof.Machine

open Sys2Proof.Claims

/-! ## Rejected words -/

/-- A word that is no command raises ILLEGAL_COMMAND (R107, R344). -/
theorem runCommand_of_decode_error {c : Word} {r : Reject} (h : decode c = .error r) (s : State) :
    runCommand c s = .next { s with lastErr := .illegalCommand, errSeen := true } := by
  unfold runCommand
  rw [h]
  rfl

/-- Settles O4: the values no row has, and what the engine does with a word it rejects. -/
theorem reservedOpcodesRaiseIllegal : Obligations.ReservedOpcodesRaiseIllegal := fun c =>
  ⟨(decode_eq_reservedOpcode_iff c).trans (Op.ofCode_eq_none_iff _), runCommand_of_decode_error⟩

/-- The match mask of a row is the complement of its operand bits (R107). -/
theorem matchMasks_eq : matchMasks = Op.all.map fun o => (o.code, ~~~ o.format.freemask) := by decide

/-- Settles O5, from the decoder's answer for a word of a row. -/
theorem reservedBitsRaiseIllegal : Obligations.ReservedBitsRaiseIllegal := by
  intro c row hrow hopc
  rw [matchMasks_eq] at hrow
  obtain ⟨o, -, rfl⟩ := List.mem_map.1 hrow
  have hdecode := decode_of_opcode hopc
  refine ⟨fun hmatch => ?_, fun hmatch => ?_⟩
  · exact ⟨o.operands c, hdecode.trans (if_pos hmatch), congrArg Op.code (op_operands o c)⟩
  · have hreject := hdecode.trans (if_neg hmatch)
    exact ⟨hreject, runCommand_of_decode_error hreject⟩

/-! ## The assembler -/

/-- Settles O59: the check of a command line is well-formedness, and the word it gives decodes back. -/
theorem assembledCommandDecodes : Obligations.AssembledCommandDecodes := by
  intro nb nk i
  cases hw : i.wf with
  | true => simpa [assemble, hw, cmdWrite] using decode_encode hw
  | false => simp [assemble, hw]

/-- The writes of consecutive registers, word k to the register k places on (R114). -/
theorem regWrites_eq_map_zipIdx (n : Nat) (vs : List Nat) (k : Nat) :
    regWrites (n + k) vs =
      (vs.zipIdx k).map fun v => .write (8 * n + 8 * v.2) 8 (BitVec.ofNat 64 v.1) := by
  induction vs generalizing k with
  | nil => rfl
  | cons v vs ih =>
    rw [regWrites, List.zipIdx_cons, List.map_cons, Nat.add_assoc, ih (k + 1), Nat.mul_add]

/-- Settles O60: the words fit, so each line's check is the count of its words. -/
theorem pseudoInstructionsExpand : Obligations.PseudoInstructionsExpand := by
  intro nb nk vs hvs
  have fits : vs.all fitsWord = true := List.all_eq_true.2 fun v hv => decide_eq_true (hvs v hv)
  have keyWrites := regWrites_eq_map_zipIdx 16 vs 0
  have dinWrites := regWrites_eq_map_zipIdx 8 vs 0
  refine ⟨fun v hv => if_pos (decide_eq_true hv), fun hm => if_neg fun h => hm h.1,
    fun hm => ⟨if_neg fun h => hm h.1, if_neg fun h => hm h.1, if_neg fun h => hm h.1⟩, fun hm => ?_,
    fun hm => ⟨?_, ?_, ?_⟩⟩
  · rw [← keyWrites]
    exact if_pos ⟨hm, fits⟩
  all_goals
    rw [← dinWrites]
    exact if_pos ⟨hm, fits⟩

/-! ## Command errors of an operand's value -/

/-- INIT of sizes that are no configuration fails (R142). -/
theorem exec_init_of_ofSizes_none {blk keyb : Nat} (h : Conf.ofSizes blk keyb = none) (s : State) :
    Fails (.init blk keyb) s .unsupportedConfiguration :=
  (guarded_of_allowed (o := .init) (s := s) _ rfl).trans <| by
    rw [h]
    rfl

/-- Settles O1: the encodings are computed, and each word decodes because its command is well formed. -/
theorem specExampleWordsDecode : Obligations.SpecExampleWordsDecode := by
  have reserved : decode 0x0000000000000111 = .error .reservedBit := rfl
  exact ⟨decode_of_encode_eq rfl rfl, rfl, decode_of_encode_eq rfl rfl, rfl, decode_of_encode_eq rfl rfl, rfl,
    decode_of_encode_eq rfl rfl, rfl, decode_of_encode_eq rfl rfl, rfl, decode_of_encode_eq rfl rfl, rfl,
    exec_init_of_ofSizes_none rfl, decode_of_encode_eq rfl rfl, rfl, decode_of_encode_eq rfl rfl, rfl,
    decode_of_encode_eq rfl rfl, rfl, decode_of_encode_eq rfl rfl, rfl, decode_of_encode_eq rfl rfl, rfl,
    reserved, runCommand_of_decode_error reserved⟩

/-- With a key schedule, the check of an index past NR fails, whatever the command would do (R104, R341). -/
theorem guarded_range {o : Op} {s : State} {j : Nat} (r : Result) (ho : o.requires = .expanded)
    (hlc : s.lc = .keyExpanded) (hj : s.nr.toNat < j) :
    guarded o s (if s.indexOutOfRange j then raise .range s else r) = raise .range s := by
  rw [guarded_of_allowed _ (by rw [ho, hlc]; rfl)]
  exact if_pos (decide_eq_true hj)

/-- Settles O25: each of the three commands is that check first. -/
theorem roundKeyIndexPastNrFails : Obligations.RoundKeyIndexPastNrFails := fun _ _ hlc hj =>
  ⟨guarded_range _ rfl hlc hj, guarded_range _ rfl hlc hj, guarded_range _ rfl hlc hj⟩

end Sys2Proof.Machine

/-!
The lifecycle of a context: what INIT and TEARDOWN leave, and what a command does to LC (rules R140 to R146).
-/
namespace Sys2Proof.Machine

open Sys2Proof.Claims

/-! ## INIT and TEARDOWN -/

/-- A configuration is found by its sizes: no two rows of R6 share them. -/
theorem ofSizes_sizes (cf : Conf) : Conf.ofSizes cf.blockBits cf.keyBits = some cf := by
  cases cf <;> rfl

/-- INIT of the sizes of a configuration makes a fresh context of it (R142, R143). -/
theorem exec_init_sizes (cf : Conf) (s : State) :
    exec (.init cf.blockBits cf.keyBits) s = .next (initialised cf s) :=
  (guarded_of_allowed (o := .init) (s := s) _ rfl).trans <| by
    rw [ofSizes_sizes]
    rfl

/-- The sizes of every configuration are a legal pair (R6). -/
theorem legalPair_sizes (cf : Conf) : LegalPair cf.blockBits cf.keyBits := by
  cases cf <;> simp [LegalPair, Conf.blockBits, Conf.keyBits]

/-- Sizes that are no legal pair are those of no configuration (R142). -/
theorem ofSizes_eq_none {blk keyb : Nat} (h : ¬ LegalPair blk keyb) : Conf.ofSizes blk keyb = none := by
  refine List.find?_eq_none.2 fun cf _ hcf => h ?_
  obtain ⟨rfl, rfl⟩ : cf.blockBits = blk ∧ cf.keyBits = keyb := by simpa using hcf
  exact legalPair_sizes cf

/-- Settles O7: each of the five pairs is a row of R6, and no other pair is. -/
theorem initChecksConfiguration : Obligations.InitChecksConfiguration := by
  intro s blk keyb
  have row : ∀ cf : Conf, blk = cf.blockBits → keyb = cf.keyBits →
      exec (.init blk keyb) s = .next (initialised cf s) := by
    rintro cf rfl rfl
    exact exec_init_sizes cf s
  refine ⟨?_, fun h => exec_init_of_ofSizes_none (ofSizes_eq_none h) s⟩
  simp only [List.forall_mem_cons]
  exact ⟨row .b128k128, row .b128k256, row .b256k256, row .b256k512, row .b512k512, nofun⟩

/-- The cipher state is zero when no context is active (R34, R37). -/
theorem State.Inv.state_eq_zero {s : State} (h : s.Inv) (hlc : s.lc = .none) : s.state = zeroBlock := by
  obtain ⟨hnb, -, -⟩ := h.none_iff.1 hlc
  have hcols : s.cols = 0 := congrArg BitVec.toNat hnb
  refine Block.eq_of_words fun i _ => ?_
  rw [h.state_tail i (by omega), word_zeroBlock]

/-- TEARDOWN with no context changes LAST_ERR alone: all it zeroes is zero already (R37, R145). -/
theorem tornDown_of_no_context {s : State} (h : s.Inv) (hlc : s.lc = .none) :
    tornDown s = { s with lastErr := .ok } := by
  obtain ⟨hnb, hnk, hnr⟩ := h.none_iff.1 hlc
  obtain ⟨hkt, htmv, hktRound, hinitialData, hk0, hk1⟩ := h.none_scratch hlc
  simp [tornDown, hlc, hnb, hnk, hnr, h.state_eq_zero hlc, h.none_rk hlc, hkt, htmv, hktRound, hinitialData,
    hk0, hk1]

/-- Settles O8: TEARDOWN needs no lifecycle state, and without a context it finds everything zero. -/
theorem teardownReleasesContext : Obligations.TeardownReleasesContext :=
  ⟨fun _ => rfl, fun _ h hlc => congrArg Host.Outcome.next (tornDown_of_no_context h hlc)⟩

/-! ## The lifecycle state -/

/-- What a command does to LC: nothing, or INIT makes a context, TEARDOWN releases it, KEY_EXPAND fills it. -/
theorem exec_lc {i : Instr} {s t : State} (ht : exec i s = .next t) :
    t.lc = s.lc ∨ ((∃ blk keyb, i = .init blk keyb) ∧ t.lc = .created) ∨ (i = .teardown ∧ t.lc = .none) ∨
      (i = .keyExpand ∧ t.lc = .keyExpanded) := by
  rcases exec_cases i s with ⟨_, -, -, -, heq⟩ | ⟨blk, keyb, _, rfl, -, heq⟩ | ⟨rfl, heq⟩ | ⟨rfl, -, heq⟩ |
    ⟨-, -, _, heq⟩ | ⟨-, _, heq⟩ <;> cases heq.symm.trans ht
  · exact .inl rfl
  · exact .inr (.inl ⟨⟨blk, keyb, rfl⟩, rfl⟩)
  · exact .inr (.inr (.inl ⟨rfl, rfl⟩))
  · exact .inr (.inr (.inr ⟨rfl, rfl⟩))
  · exact .inl rfl
  · exact .inl rfl

/-- Only TEARDOWN leads to NONE (R146). -/
theorem eq_teardown_of_lc_none {i : Instr} {s t : State} (ht : exec i s = .next t) (hs : s.lc ≠ .none)
    (hnone : t.lc = .none) : i = .teardown := by
  rcases exec_lc ht with h | ⟨-, h⟩ | ⟨hi, -⟩ | ⟨-, h⟩
  · exact absurd (h.symm.trans hnone) hs
  · cases h.symm.trans hnone
  · exact hi
  · cases h.symm.trans hnone

/-- Only INIT leads to CREATED (R146). -/
theorem eq_init_of_lc_created {i : Instr} {s t : State} (ht : exec i s = .next t) (hs : s.lc ≠ .created)
    (hcreated : t.lc = .created) : ∃ blk keyb, i = .init blk keyb := by
  rcases exec_lc ht with h | ⟨hi, -⟩ | ⟨-, h⟩ | ⟨-, h⟩
  · exact absurd (h.symm.trans hcreated) hs
  · exact hi
  · cases h.symm.trans hcreated
  · cases h.symm.trans hcreated

/-- Settles O9: the table by the six things a command can do, the two exclusions by what leads to NONE and to
CREATED. -/
theorem lifecycleTransitions : Obligations.LifecycleTransitions := by
  intro i s t ht
  refine ⟨fun hok => ?_, fun hs => eq_teardown_of_lc_none ht (by simp [hs]),
    fun hs => eq_init_of_lc_created ht (by simp [hs])⟩
  rcases exec_cases i s with ⟨_, he, -, -, heq⟩ | ⟨_, _, _, rfl, -, heq⟩ | ⟨rfl, heq⟩ | ⟨rfl, hlc, heq⟩ |
    ⟨hi, hlc, _, heq⟩ | ⟨hi, _, heq⟩ <;> cases heq.symm.trans ht
  · exact absurd hok he
  · rfl
  · rfl
  · exact ⟨hlc, rfl⟩
  · cases i with
    | init _ _ | teardown | keyExpand | gfMul _ _ | sbox _ _ | invSbox _ _ => cases hi
    | _ => exact ⟨hlc, rfl⟩
  · cases i with
    | gfMul _ _ | sbox _ _ | invSbox _ _ => rfl
    | _ => cases hi

end Sys2Proof.Machine

/-!
The substitution commands (rules R160 to R168): the byte-wise writes of STATE, and the table look-ups to SOUT.
-/
namespace Sys2Proof.Machine

open Sys2Proof.Claims

/-! ## The commands on STATE -/

/-- A command that applies f to STATE writes the bytes of what f gives on the nb words, and nothing above
them (R15, R34). -/
theorem AppliesToState.writesState_bytes {i : Instr} {f : Params → Nat → Block → Block} (h : AppliesToState i f)
    {s : State} (hlc : s.lc ≠ .none) {b : Nat → Nat → Byte}
    (hb : ∀ k < s.cols, ∀ j < 8, byteOf (Block.word (f s.params s.cols s.state) k) j = b k j) :
    WritesState i s fun v => ∀ k < s.cols, ∀ j < 8, byteOf (Block.word v k) j = b k j := by
  refine ⟨_, h s hlc, fun k hk => ?above, fun k hk j hj => ?below⟩
  case above => rw [word_putState, if_neg (by omega)]
  case below => rw [word_putState, if_pos hk, hb k hk j hj]

/-- Settles O12: each command applies its substitution to STATE, and the substitution goes byte by byte. -/
theorem substitutionCommands : Obligations.SubstitutionCommands := by
  intro s hlc hconf
  have hnb := cols_le_eight hconf
  exact ⟨subBytes_applies.writesState_bytes hlc fun _ hi _ hj => byteOf_subBytes _ _ hi (by omega) hj,
    invSubBytes_applies.writesState_bytes hlc fun _ hi _ hj => byteOf_invSubBytes _ _ hi (by omega) hj⟩

/-! ## The look-ups -/

/-- Indices that fit the encoding of R106 reach the table and the entry they name (R160). -/
theorem table_entry_eq_getD (T : SboxTables) {t x : Nat} (ht : t < 4) (hx : x < 256) :
    (T[t % 4]'(Nat.mod_lt _ (by decide)))[(BitVec.ofNat 8 x).toNat]'(BitVec.ofNat 8 x).isLt =
      T[t].toList.getD x 0 := by
  simp [Nat.mod_eq_of_lt ht, Nat.mod_eq_of_lt hx, hx]

theorem sboxAt_ofNat (p : Params) {t x : Nat} (ht : t < 4) (hx : x < 256) :
    p.sboxAt t (BitVec.ofNat 8 x) = p.sbox[t].toList.getD x 0 :=
  table_entry_eq_getD p.sbox ht hx

theorem invSboxAt_ofNat (p : Params) {t x : Nat} (ht : t < 4) (hx : x < 256) :
    p.invSboxAt t (BitVec.ofNat 8 x) = p.invSbox[t].toList.getD x 0 :=
  table_entry_eq_getD p.invSbox ht hx

/-- SBOX has no lifecycle requirement and completes with the entry in SOUT (R166). -/
theorem exec_sbox (t x : Nat) (s : State) : exec (.sbox t x) s =
    .next { s with sout := (s.params.sboxAt t (BitVec.ofNat 8 x)).setWidth 64, lastErr := .ok } := rfl

/-- INV_SBOX has no lifecycle requirement and completes with the entry in SOUT (R167). -/
theorem exec_invSbox (t x : Nat) (s : State) : exec (.invSbox t x) s =
    .next { s with sout := (s.params.invSboxAt t (BitVec.ofNat 8 x)).setWidth 64, lastErr := .ok } := rfl

/-- Settles O13: both look-ups complete in every lifecycle state, with the entry that t and x name. -/
theorem tableLookupCommands : Obligations.TableLookupCommands := fun s t x ht hx =>
  ⟨⟨ht, by rw [exec_sbox, sboxAt_ofNat _ ht hx]⟩, ⟨ht, by rw [exec_invSbox, invSboxAt_ofNat _ ht hx]⟩⟩

end Sys2Proof.Machine

/-!
The permutation (rules R180 to R186): the commands on STATE, and the inverse law of the two block functions.
-/
namespace Sys2Proof.Machine

open Sys2Proof.Claims

theorem writesState_mono {i : Instr} {s : State} {P Q : Block → Prop} (h : WritesState i s P)
    (hPQ : ∀ v, P v → Q v) : WritesState i s Q :=
  let ⟨v, hexec, hframe, hP⟩ := h
  ⟨v, hexec, hframe, hPQ v hP⟩

/-- Settles O15: the byte that SHIFT_ROWS moves to column (c + a) mod nb is the one that column takes from
a columns back, which is c; INV_SHIFT_ROWS is stated by its source column, as R183 is. -/
theorem shiftRowsCommands : Obligations.ShiftRowsCommands := by
  intro s hlc hconf
  have hnb := cols_le_eight hconf
  constructor
  case left =>
    refine writesState_mono (shiftRows_applies.writesState_bytes hlc fun _ hc _ hr =>
      byteOf_shiftRows s.state hc (by omega) hr) fun v hv r hr c hc => ?_
    change byteOf (Block.word v ((c + shiftAmount s.cols r) % s.cols)) r = _
    rw [hv _ (Nat.mod_lt _ (by omega)) r hr, add_sub_mod_cancel hc (shiftAmount_le _ hr)]
  case right =>
    exact writesState_mono (invShiftRows_applies.writesState_bytes hlc fun _ hc _ hr =>
      byteOf_invShiftRows s.state hc (by omega) hr) fun _ hv r hr c hc => hv c hc r hr

/-- Settles O16, from the inverse pair of the two permutations on at most eight columns. -/
theorem permutationInverseLaw : Obligations.PermutationInverseLaw := fun nb hnb S =>
  have h := shiftRows_invShiftRows ((by decide : ∀ n ∈ [2, 4, 8], n ≤ 8) nb hnb)
  ⟨h.right_left S, h.left_right S⟩

end Sys2Proof.Machine

/-!
The multiplier GFMUL (rules R200 to R203): the loop of R201 multiplies polynomials modulo 0x11D, and 0x02
generates the nonzero bytes, which gives each of them its inverse.
-/
namespace Sys2Proof.Machine

open Sys2Proof.Claims Polynomial

/-! ## The product as a product of polynomials -/

/-- The modulus of R202. -/
noncomputable def modulus : (ZMod 2)[X] := X ^ 8 + X ^ 4 + X ^ 3 + X ^ 2 + 1

/-- The polynomial of the n lowest bits of a byte: what n iterations of the loop read of y (R201). -/
noncomputable def lowPoly (n : Nat) (y : Byte) : (ZMod 2)[X] :=
  ∑ k ∈ Finset.range n, if y.getLsbD k then X ^ k else 0

theorem lowPoly_eight (y : Byte) : lowPoly 8 y = bytePoly y := rfl

/-- The loop reads bit 0 and shifts the others down. -/
theorem lowPoly_succ (n : Nat) (y : Byte) :
    lowPoly (n + 1) y = (if y.getLsbD 0 then 1 else (0 : (ZMod 2)[X])) + X * lowPoly n (y >>> 1) := by
  unfold lowPoly
  rw [Finset.sum_range_succ', Finset.mul_sum, add_comm]
  simp [pow_succ', Nat.add_comm]

theorem bytePoly_xor (a b : Byte) : bytePoly (a ^^^ b) = bytePoly a + bytePoly b := by
  unfold bytePoly
  rw [← Finset.sum_add_distrib]
  refine Finset.sum_congr rfl fun k _ => ?_
  rw [BitVec.getLsbD_xor]
  cases a.getLsbD k <;> cases b.getLsbD k <;> simp [CharTwo.add_self_eq_zero]

/-- A shift by one multiplies by z, but for the bit that it drops. -/
theorem bytePoly_shiftLeft_one (x : Byte) :
    bytePoly (x <<< 1) = X * bytePoly x + if x.getLsbD 7 then X ^ 8 else 0 := by
  have kept : bytePoly (x <<< 1) = X * lowPoly 7 x := by
    unfold bytePoly lowPoly
    rw [Finset.sum_range_succ', Finset.mul_sum]
    simp only [BitVec.getLsbD_shiftLeft]
    refine (add_zero _).trans (Finset.sum_congr rfl fun k hk => ?_)
    have : k + 1 < 8 := Nat.succ_lt_succ (Finset.mem_range.1 hk)
    simp [this, pow_succ']
  have whole : bytePoly x = lowPoly 7 x + if x.getLsbD 7 then X ^ 7 else 0 := Finset.sum_range_succ _ 7
  rw [kept, whole]
  split
  · rw [mul_add, ← pow_succ', add_assoc, CharTwo.add_self_eq_zero, add_zero]
  · rw [add_zero, add_zero]

/-- Doubling multiplies by z, and adds the modulus where the shift drops z^8. -/
theorem bytePoly_double (x : Byte) :
    bytePoly (double x) = X * bytePoly x + if x.getLsbD 7 then modulus else 0 := by
  have low : bytePoly 0x1D#8 = X ^ 4 + X ^ 3 + X ^ 2 + 1 := by
    simp [bytePoly, Finset.sum_range_succ]
    ring
  unfold double
  split
  · rw [bytePoly_xor, bytePoly_shiftLeft_one, low, if_pos ‹_›, modulus]
    ring
  · rw [bytePoly_shiftLeft_one, if_neg ‹_›]

theorem modulus_dvd_double (x : Byte) : modulus ∣ bytePoly (double x) - X * bytePoly x := by
  rw [bytePoly_double, add_sub_cancel_left]
  split
  · exact dvd_rfl
  · exact dvd_zero _

/-- The loop adds to r the product of x and of the bits of y that it reads, modulo 0x11D (R201). -/
theorem modulus_dvd_gmulLoop (n : Nat) (r x y : Byte) :
    modulus ∣ bytePoly (gmulLoop n r x y) - (bytePoly r + bytePoly x * lowPoly n y) := by
  induction n generalizing r x y with
  | zero => simp [gmulLoop, lowPoly]
  | succ n ih =>
    have added : bytePoly (if y.getLsbD 0 then r ^^^ x else r) =
        bytePoly r + bytePoly x * if y.getLsbD 0 then 1 else 0 := by
      split
      · rw [bytePoly_xor, mul_one]
      · rw [mul_zero, add_zero]
    have iteration := dvd_add (ih (if y.getLsbD 0 then r ^^^ x else r) (double x) (y >>> 1))
      ((modulus_dvd_double x).mul_right (lowPoly n (y >>> 1)))
    rw [gmulLoop_succ, lowPoly_succ]
    convert iteration using 1
    rw [added]
    ring

/-- Settles O18: the loop starts with r = 0 and reads the eight bits of b. -/
theorem gmulIsPolynomialProduct : Obligations.GmulIsPolynomialProduct := fun a b => by
  have start : bytePoly 0 + bytePoly a * lowPoly 8 b = bytePoly a * bytePoly b := by
    simp [lowPoly_eight, bytePoly]
  exact start ▸ modulus_dvd_gmulLoop 8 0 a b

/-! ## The field laws -/

/-- Both sides keep exclusive-or in each factor, so the law is decided on the bytes with one bit set. -/
theorem gmul_comm (a b : Byte) : gmul a b = gmul b a := by
  have bits : ∀ i < 8, ∀ j < 8, gmul (1 <<< i) (1 <<< j) = gmul (1 <<< j) (1 <<< i) := by decide
  refine (gmul_xorHom_left b).eq_of_bits (gmul_xorHom_right b) (fun i hi => ?_) a
  exact (gmul_xorHom_right _).eq_of_bits (gmul_xorHom_left _) (fun j hj => bits i hi j hj) b

/-- The n-th power of 0x02. -/
def powTwo (n : Nat) : Byte := (gmul 0x02)^[n] 1

theorem powTwo_succ (n : Nat) : powTwo (n + 1) = gmul 0x02 (powTwo n) := Function.iterate_succ_apply' _ n 1

theorem powTwo_add (m n : Nat) : powTwo (m + n) = gmul (powTwo m) (powTwo n) := by
  induction m with
  | zero => rw [Nat.zero_add, powTwo, powTwo, Function.iterate_zero_apply, gmul_one_left]
  | succ m ih => rw [Nat.succ_add, powTwo_succ, powTwo_succ, ih, gmul_assoc]

/-- 255 = 3 · 5 · 17, and 255 divided by any of these primes is no exponent that gives 1. -/
theorem powTwo_order_values :
    powTwo 255 = 1 ∧ powTwo 85 ≠ 1 ∧ powTwo 51 ≠ 1 ∧ powTwo 15 ≠ 1 := by decide +kernel

/-- A proper divisor of 255 divides 255 / 3, 255 / 5 or 255 / 17. -/
theorem eq_255_of_dvd {d : Nat} (h : d ∣ 255) : ¬ d ∣ 85 → ¬ d ∣ 51 → ¬ d ∣ 15 → d = 255 :=
  have divisors : ∀ d ∈ Nat.divisors 255, ¬ d ∣ 85 → ¬ d ∣ 51 → ¬ d ∣ 15 → d = 255 := by decide +kernel
  divisors d (Nat.mem_divisors.2 ⟨h, by decide⟩)

theorem minimalPeriod_gmul_two : Function.minimalPeriod (gmul 0x02) 1 = 255 := by
  obtain ⟨h255, h85, h51, h15⟩ := powTwo_order_values
  have one_iff : ∀ n, powTwo n = 1 ↔ Function.minimalPeriod (gmul 0x02) 1 ∣ n := fun _ =>
    Function.isPeriodicPt_iff_minimalPeriod_dvd
  exact eq_255_of_dvd ((one_iff _).1 h255) (mt (one_iff _).2 h85) (mt (one_iff _).2 h51) (mt (one_iff _).2 h15)

/-- The order of 0x02 is 255. -/
theorem powTwo_eq_one_iff (n : Nat) : powTwo n = 1 ↔ 255 ∣ n := by
  rw [← minimalPeriod_gmul_two]
  exact Function.isPeriodicPt_iff_minimalPeriod_dvd

theorem gmul_powTwo_sub {n : Nat} (hn : n ≤ 255) : gmul (powTwo n) (powTwo (255 - n)) = 1 := by
  rw [← powTwo_add, Nat.add_sub_cancel' hn, powTwo_eq_one_iff]

theorem powTwo_ne_zero {n : Nat} (hn : n ≤ 255) : powTwo n ≠ 0 := by
  intro h
  have inverse := gmul_powTwo_sub hn
  rw [h, gmul_zero_left] at inverse
  exact absurd inverse (by decide)

/-- The 255 first powers of 0x02 are distinct and not 0, and there are no more nonzero bytes than these. -/
theorem exists_powTwo_eq {a : Byte} (ha : a ≠ 0) : ∃ n ≤ 255, powTwo n = a := by
  have nonzero : Set.MapsTo powTwo (Finset.range 255) ({0}ᶜ : Finset Byte) := fun n hn => by
    simpa using powTwo_ne_zero (Finset.mem_range.1 hn).le
  have distinct : Set.InjOn powTwo (Finset.range 255) := by
    rw [Finset.coe_range, ← minimalPeriod_gmul_two]
    exact Function.iterate_injOn_Iio_minimalPeriod
  have count : ({0}ᶜ : Finset Byte).card ≤ (Finset.range 255).card := by
    have bytes : Fintype.card Byte = 256 := FinEnum.card_eq_fintypeCard.symm
    simp [Finset.card_compl, bytes]
  obtain ⟨n, hn, rfl⟩ := Finset.surjOn_of_injOn_of_card_le powTwo nonzero distinct count (by simpa using ha)
  exact ⟨n, (Finset.mem_range.1 hn).le, rfl⟩

theorem exists_gmul_eq_one {a : Byte} (ha : a ≠ 0) : ∃ b, gmul a b = 1 := by
  obtain ⟨n, hn, rfl⟩ := exists_powTwo_eq ha
  exact ⟨_, gmul_powTwo_sub hn⟩

theorem gmul_inverse_unique {a b c : Byte} (hb : gmul a b = 1) (hc : gmul a c = 1) : b = c :=
  calc b = gmul b (gmul a c) := by rw [hc, gmul_one_right]
    _ = gmul (gmul a b) c := by rw [← gmul_assoc, gmul_comm b a]
    _ = c := by rw [hb, gmul_one_left]

/-- Settles O19: a nonzero byte is a power of 0x02, whose inverse is the power that completes it to 255. -/
theorem gmulFieldLaws : Obligations.GmulFieldLaws :=
  ⟨gmul_comm, gmul_one_right, gmul_zero_right, gmul_assoc, gmul_xorHom_right,
    fun _ ha =>
      let ⟨b, hb⟩ := exists_gmul_eq_one ha
      ⟨b, hb, fun _ hc => gmul_inverse_unique hc hb⟩,
    by decide, powTwo_eq_one_iff⟩

/-! ## GF_MUL -/

/-- GF_MUL has no lifecycle requirement and completes with the product in SOUT (R203). -/
theorem exec_gfMul (a b : Nat) (s : State) : exec (.gfMul a b) s =
    .next { s with sout := (gmul (BitVec.ofNat 8 a) (BitVec.ofNat 8 b)).setWidth 64, lastErr := .ok } := rfl

/-- Settles O17: the operands of the command are the bytes' own numbers. -/
theorem gfMulCommand : Obligations.GfMulCommand :=
  ⟨fun s a b => by simp only [exec_gfMul, BitVec.ofNat_toNat, BitVec.setWidth_eq],
    by decide, by decide, by decide⟩

end Sys2Proof.Machine

/-!
The multiplier MDSMUL (rules R205 to R211): the commands on STATE, the linearity of the column product, and the
default matrices.
-/
namespace Sys2Proof.Machine

open Sys2Proof.Claims

/-! ## The commands on STATE -/

/-- Settles O20: each command applies its matrix to STATE column by column. -/
theorem mixColumnsCommands : Obligations.MixColumnsCommands := by
  intro s hlc hconf
  have hnb := cols_le_eight hconf
  exact ⟨mixColumns_applies.writesState_bytes hlc fun c hc r hr => by
      rw [word_mixColumns _ _ hc (by omega), byteOf_colmul _ _ hr],
    invMixColumns_applies.writesState_bytes hlc fun c hc r hr => by
      rw [word_invMixColumns _ _ hc (by omega), byteOf_colmul _ _ hr]⟩

/-! ## The column product -/

theorem byteOf_xor (u w : Word) (k : Nat) : byteOf (u ^^^ w) k = byteOf u k ^^^ byteOf w k :=
  BitVec.extractLsb'_xor

/-- Each term of the rows' sums keeps exclusive-or in the column's byte. -/
theorem colmul_xor (M : ByteMatrix) (u w : Word) : colmul M (u ^^^ w) = colmul M u ^^^ colmul M w := by
  refine word_eq_of_bytes fun r hr => ?_
  rw [byteOf_xor]
  simp only [byteOf_colmul M _ hr, byteOf_xor, (gmul_xorHom_right _) _ _, xorBytes_xor]

theorem colmul_zero (M : ByteMatrix) : colmul M 0 = 0 := by
  simpa using colmul_xor M 0 0

theorem byteOf_colmul_unitColumn (M : ByteMatrix) {r k : Nat} (hr : r < 8) (hk : k < 8) :
    byteOf (colmul M (unitColumn k)) r = M.entry r k := by
  rw [byteOf_colmul M _ hr, ← xorBytes_single hk (M.entry r)]
  refine xorBytes_congr fun j hj => ?_
  rw [byteOf_unitColumn k hj]
  split
  · rw [gmul_one_right]
  · rw [gmul_zero_right]

theorem one_shiftLeft_eq_unitColumn : ∀ k < 8, (1 : Word) <<< (8 * k) = unitColumn k := by decide

/-- Settles O21: the product is linear in the column, and takes a unit column to the matrix's own column. -/
theorem columnProductIsLinear : Obligations.ColumnProductIsLinear := fun M =>
  ⟨colmul_xor M, colmul_zero M, fun k hk r hr => by
    rw [one_shiftLeft_eq_unitColumn k hk, byteOf_colmul_unitColumn M hr hk]⟩

/-! ## The default matrices -/

/-- Under the contract of R9 the matrices are inverse to each other in the other order too. -/
theorem prodEntry_mds_mdsInv {p : Params} (hp : p.MdsOk) {r c : Nat} (hr : r < 8) (hc : c < 8) :
    prodEntry p.mds p.mdsInv r c = if r = c then 1 else 0 := by
  rw [← byteOf_colmul_colmul_unitColumn p.mds p.mdsInv hr hc, colmul_mds_mdsInv hp, byteOf_unitColumn c hr]

/-- Settles O23: the entries by inspection, and the products from the contract of R9, which the default
matrices meet. -/
theorem defaultMatricesAreCirculant : Obligations.DefaultMatricesAreCirculant :=
  ⟨by decide, fun _ hr _ hc => prodEntry_mds_mdsInv default_mdsOk hr hc, default_mdsOk⟩

end Sys2Proof.Machine

/-!
The mixer RKMIX (rules R230 to R239): the commands that mix RK[j] or DIN into STATE, the laws of the mixings, and
stage 1 of the key schedule (R282) run as component commands.
-/
namespace Sys2Proof.Machine

open Sys2Proof.Claims

/-! ## The mixings word by word -/

/-- No carry crosses a word: each word of AddKey is a sum modulo 2^64 (R230, R231). -/
theorem toNat_word_addKey {nb : Nat} (S K : Block) {i : Nat} (h : i < nb) (h8 : i < 8) :
    (Block.word (addKey nb S K) i).toNat = ((Block.word S i).toNat + (Block.word K i).toNat) % 2 ^ 64 := by
  rw [word_addKey S K h h8, BitVec.toNat_add]

/-- No borrow crosses a word: each word of SubKey is a difference modulo 2^64 (R230, R231). -/
theorem toNat_word_subKey {nb : Nat} (S K : Block) {i : Nat} (h : i < nb) (h8 : i < 8) :
    (Block.word (subKey nb S K) i).toNat =
      ((Block.word S i).toNat + 2 ^ 64 - (Block.word K i).toNat) % 2 ^ 64 := by
  have hK := (Block.word K i).isLt
  rw [word_subKey S K h h8, BitVec.toNat_sub]
  congr 1
  omega

/-- Settles O27, from the inverse pairs of the mixings; on a word of value 1, 0 + 1 = 1 but 2 ^^^ 1 = 3. -/
theorem mixingLaws : Obligations.MixingLaws := by
  refine ⟨fun nb S K => ⟨(addKey_subKey nb K).right_left S, (addKey_subKey nb K).left_right S,
    xorKey_xorKey nb S K⟩, fun S hS => ⟨?addAfterXor, ?xorAfterAdd⟩⟩
  case addAfterXor =>
    rw [word_addKey _ _ one_pos (by decide), word_xorKey _ _ one_pos (by decide), hS]
    decide
  case xorAfterAdd =>
    rw [word_xorKey _ _ one_pos (by decide), word_addKey _ _ one_pos (by decide), hS]
    decide

/-! ## The commands -/

/-- A command that completes with a write of STATE leaves the written words below nb, and the old ones above
them (R15, R34). -/
theorem writesState_of_putState {i : Instr} {s : State} {new : Block} {post : Block → Prop}
    (h : exec i s = .next { s.putState new with lastErr := .ok })
    (hpost : ∀ v, AgreeBelow s.cols v new → post v) : WritesState i s post := by
  refine ⟨_, h, fun k hk => ?above, hpost _ (agreeBelow_merge _ _ _)⟩
  case above => rw [word_putState, if_neg (by omega)]

/-- With a key schedule, an index up to NR passes both checks (R104, R343). -/
theorem guarded_in_range {o : Op} {s : State} {j : Nat} (r : Result) (ho : o.requires = .expanded)
    (hlc : s.lc = .keyExpanded) (hj : j ≤ s.nr.toNat) :
    guarded o s (if s.indexOutOfRange j then raise .range s else r) = r := by
  rw [guarded_of_allowed _ (by rw [ho, hlc]; rfl)]
  exact if_neg (by simpa [State.indexOutOfRange] using hj)

/-- Settles O24: past its checks each command writes its mixing of STATE and RK[j]. -/
theorem roundKeyMixCommands : Obligations.RoundKeyMixCommands := by
  intro s j hlc hconf hj
  have hnb := cols_le_eight hconf
  refine ⟨writesState_of_putState (guarded_in_range _ rfl hlc hj) fun v hv i hi => ?add,
    writesState_of_putState (guarded_in_range _ rfl hlc hj) fun v hv i hi => ?sub,
    writesState_of_putState (guarded_in_range _ rfl hlc hj) fun v hv i hi => ?xor⟩
  case add => exact hv i hi ▸ toNat_word_addKey _ _ hi (by omega)
  case sub => exact hv i hi ▸ toNat_word_subKey _ _ hi (by omega)
  case xor => exact (hv i hi).trans (word_xorKey _ _ hi (by omega))

/-- With a context, the command writes f of STATE and DIN to STATE and does nothing else but LAST_ERR <- 0. -/
def MixesDin (i : Instr) (f : Nat → Block → Block → Block) : Prop :=
  ∀ s : State, s.lc ≠ .none → exec i s = .next { s.putState (f s.cols s.state s.dataIn) with lastErr := .ok }

theorem loadState_mixesDin : MixesDin .loadState fun _ _ D => D :=
  fun _ hlc => guarded_of_allowed (o := .loadState) _ (allows_context_iff.2 hlc)

theorem addDin_mixesDin : MixesDin .addDin addKey :=
  fun _ hlc => guarded_of_allowed (o := .addDin) _ (allows_context_iff.2 hlc)

theorem xorDin_mixesDin : MixesDin .xorDin xorKey :=
  fun _ hlc => guarded_of_allowed (o := .xorDin) _ (allows_context_iff.2 hlc)

/-- Settles O26: each command writes its mixing of STATE and DIN, whose words below nb are those it copied in. -/
theorem dinCommands : Obligations.DinCommands := by
  intro s hlc hconf
  have hnb := cols_le_eight hconf
  have hdin : AgreeBelow s.cols s.dataIn s.din := agreeBelow_window s.cols s.din
  refine ⟨writesState_of_putState (loadState_mixesDin s hlc) fun v hv i hi => ?load,
    writesState_of_putState (addDin_mixesDin s hlc) fun v hv i hi => ?add,
    writesState_of_putState (xorDin_mixesDin s hlc) fun v hv i hi => ?xor⟩
  case load => exact (hv i hi).trans (hdin i hi)
  case add => rw [hv i hi, toNat_word_addKey _ _ hi (by omega), hdin i hi]
  case xor => rw [hv i hi, word_xorKey _ _ hi (by omega), hdin i hi]

/-! ## Stage 1 of the key schedule by commands -/

/-- Stage 2 leaves Kt as stage 1 did (R284). -/
theorem evenLoop_kt (p : Params) (nb nk nr : Nat) :
    ∀ (n idx : Nat) (k : Sched), (evenLoop p nb nk nr n idx k).kt = k.kt := by
  intro n
  induction n with
  | zero => exact fun _ _ => rfl
  | succ n ih =>
    intro idx k
    rw [evenLoop]
    split
    · rfl
    · split
      · exact ih _ _
      · split
        · rfl
        · exact ih _ _

theorem keySchedule_kt (p : Params) (nb nk nr : Nat) (key : Block) (rk : RkFile) :
    (keySchedule p nb nk nr key rk).kt = ktDerive p nb nk key :=
  evenLoop_kt p nb nk nr 10 0 (stageTwoStart p nb nk key rk)

/-- KEY_EXPAND leaves Kt of the key in its scratch (R282). -/
theorem expanded_kt (s : State) :
    (expanded (scheduleOf s) s).kt = ktDerive s.params s.cols s.nk.toNat s.keyIn :=
  keySchedule_kt s.params s.cols s.nk.toNat s.nr.toNat s.keyIn s.rk

/-- DIN[0..n-1] of an n-word block is the block (R84). -/
theorem window_ofWords (n : Nat) (f : Nat → Word) : window n 0 (Block.ofWords n f) = Block.ofWords n f :=
  window_of_mem_blocks fun _ h => word_ofWords_of_le f h

/-- A window inside the first m words of a block is the block's own. -/
theorem window_window {n m lo : Nat} (h : lo + n ≤ m) (b : Block) :
    window n lo (window m 0 b) = window n lo b :=
  ofWords_congr fun _ _ _ => agreeBelow_window m b _ (by omega)

/-- The operand k0 of stage 1, in the words of KEY (R282). -/
theorem window_keyIn {s : State} (h : s.Configured) :
    window s.cols 0 s.keyIn = Block.ofWords s.cols fun i => Block.word s.key i := by
  obtain ⟨-, hnk, -⟩ := configured_cases h
  rw [State.keyIn, window_window (by omega)]
  exact ofWords_congr fun i _ _ => by rw [Nat.zero_add]

/-- The operand k1 of stage 1, in the words of KEY (R282). -/
theorem secondHalf_keyIn {s : State} (h : s.Configured) :
    secondHalf s.cols s.nk.toNat s.keyIn =
      Block.ofWords s.cols fun i => Block.word s.key (if s.nk = s.nb then i else s.cols + i) := by
  obtain ⟨-, hnk, -⟩ := configured_cases h
  have same : s.nk.toNat = s.cols ↔ s.nk = s.nb := BitVec.toNat_inj
  unfold secondHalf
  by_cases hb : s.nk = s.nb
  · simp only [if_pos hb, if_pos (same.2 hb), window_keyIn h]
  · have hne := mt same.1 hb
    simp only [if_neg hb, if_neg hne, State.keyIn]
    exact window_window (by omega) s.key

/-- A context with parameters p and width nb, in which STATE holds the words of S below nb. -/
structure HoldsBlock (p : Params) (nb : Nat) (S : Block) (s : State) : Prop where
  context : s.lc ≠ .none
  params : s.params = p
  cols : s.cols = nb
  state : AgreeBelow nb s.state S

/-- A completed write of STATE holds the block it wrote. -/
theorem HoldsBlock.putState {p : Params} {nb : Nat} {S : Block} {s : State} (h : HoldsBlock p nb S s)
    (new : Block) : HoldsBlock p nb new { s.putState new with lastErr := .ok } :=
  ⟨h.context, h.params, h.cols, h.cols ▸ agreeBelow_merge _ _ _⟩

theorem HoldsBlock.exec_encRound {p : Params} {nb : Nat} {S : Block} {s : State} (h : HoldsBlock p nb S s) :
    ∃ t : State, exec .encRound s = .next t ∧ HoldsBlock p nb (encRound p nb S) t := by
  have round : encRound s.params s.cols s.state = encRound p nb S := by
    rw [h.params, h.cols, encRound_congr p h.state]
  exact ⟨_, encRound_applies s h.context, round ▸ h.putState _⟩

/-- A mixing with an nb-word DIN, for an f that reads the words of STATE below nb only. -/
theorem HoldsBlock.exec_mix {p : Params} {nb : Nat} {S : Block} {s : State} (h : HoldsBlock p nb S s)
    {i : Instr} {f : Nat → Block → Block → Block} (hi : MixesDin i f)
    (hf : ∀ {T D}, AgreeBelow nb T S → f nb T D = f nb S D) (g : Nat → Word) :
    ∃ t : State, exec i { s with din := Block.ofWords nb g } = .next t ∧
      HoldsBlock p nb (f nb S (Block.ofWords nb g)) t := by
  have loaded : HoldsBlock p nb S { s with din := Block.ofWords nb g } :=
    ⟨h.context, h.params, h.cols, h.state⟩
  have mixed : f s.cols s.state (window s.cols 0 (Block.ofWords nb g)) = f nb S (Block.ofWords nb g) := by
    rw [h.cols, window_ofWords, hf h.state]
  exact ⟨_, hi _ h.context, mixed ▸ loaded.putState _⟩

theorem execAll_pair {i j : Instr} {s t u : State} (hi : exec i s = .next t) (hj : exec j t = .next u) :
    execAll [i, j] s = .next u := by
  simp only [execAll, hi, hj]

/-- One line of stage 1 (R282): DIN is mixed in, and one round follows. -/
theorem HoldsBlock.mix_encRound {p : Params} {nb : Nat} {S : Block} {s : State} (h : HoldsBlock p nb S s)
    {i : Instr} {f : Nat → Block → Block → Block} (hi : MixesDin i f)
    (hf : ∀ {T D}, AgreeBelow nb T S → f nb T D = f nb S D) (g : Nat → Word) :
    ∃ t : State, execAll [i, .encRound] { s with din := Block.ofWords nb g } = .next t ∧
      HoldsBlock p nb (encRound p nb (f nb S (Block.ofWords nb g))) t := by
  obtain ⟨t, ht, hT⟩ := h.exec_mix hi hf g
  obtain ⟨u, hu, hU⟩ := hT.exec_encRound
  exact ⟨u, execAll_pair ht hu, hU⟩

/-- Settles O33: each line of R282 is a mixing with DIN and a round, and takes up the STATE of the line before. -/
theorem ktIsStageOneByCommands : Obligations.KtIsStageOneByCommands := by
  intro s hlc hconf din0 din1
  have seed : HoldsBlock s.params s.cols (ktSeed s.cols s.nk.toNat)
      { s with state := ktSeed s.cols s.nk.toNat } := ⟨hlc, rfl, rfl, .rfl' _⟩
  obtain ⟨a, ha, hA⟩ := seed.mix_encRound addDin_mixesDin (addKey_congr · (.rfl' _)) fun i => Block.word s.key i
  obtain ⟨b, hb, hB⟩ := hA.mix_encRound xorDin_mixesDin (xorKey_congr · (.rfl' _))
    fun i => Block.word s.key (if s.nk = s.nb then i else s.cols + i)
  obtain ⟨c, hc, hC⟩ := hB.mix_encRound addDin_mixesDin (addKey_congr · (.rfl' _)) fun i => Block.word s.key i
  refine ⟨a, b, c, _, ha, hb, hc, exec_keyExpand hlc, fun i hi => ?_⟩
  rw [expanded_kt, hC.state i hi, ktDerive, window_keyIn hconf, secondHalf_keyIn hconf]

end Sys2Proof.Machine

/-!
The round unit (rules R260 to R265): a run of commands that each apply a function to STATE applies the functions
one after another, so the three stage commands leave what the round command leaves.
-/
namespace Sys2Proof.Machine

open Sys2Proof.Claims

/-- With a context, the commands of the list apply f to STATE and do nothing else but LAST_ERR <- 0. -/
def AllApplyToState (is : List Instr) (f : Params → Nat → Block → Block) : Prop :=
  ∀ s : State, s.lc ≠ .none →
    execAll is s = .next { s.putState (f s.params s.cols s.state) with lastErr := .ok }

/-- A second write of STATE[0..n-1] leaves nothing of the first. -/
theorem merge_merge (n : Nat) (new mid old : Block) :
    Block.merge n new (Block.merge n mid old) = Block.merge n new old := by
  refine Block.eq_of_words fun i _ => ?_
  rw [Block.word_merge, Block.word_merge, Block.word_merge]
  split <;> rfl

theorem AppliesToState.allApply_singleton {i : Instr} {f : Params → Nat → Block → Block}
    (h : AppliesToState i f) : AllApplyToState [i] f := fun s hlc => by
  simp only [execAll, h s hlc]

/-- The commands after the first apply g to what it wrote, as g reads only the words below nb. -/
theorem AllApplyToState.cons {i : Instr} {is : List Instr} {f g : Params → Nat → Block → Block}
    (his : AllApplyToState is g) (hi : AppliesToState i f)
    (hg : ∀ p {nb S T}, AgreeBelow nb S T → g p nb S = g p nb T) :
    AllApplyToState (i :: is) fun p nb S => g p nb (f p nb S) := by
  intro s hlc
  have reads : g s.params s.cols (s.putState (f s.params s.cols s.state)).state =
      g s.params s.cols (f s.params s.cols s.state) := hg _ (agreeBelow_merge _ _ _)
  have rest := his { s.putState (f s.params s.cols s.state) with lastErr := .ok } hlc
  simp only [execAll, hi s hlc, rest]
  simp only [State.putState, State.cols] at reads ⊢
  rw [reads, merge_merge]

theorem encRound_stages_apply : AllApplyToState [.subBytes, .shiftRows, .mixColumns] encRound :=
  (mixColumns_applies.allApply_singleton.cons shiftRows_applies mixColumns_congr).cons subBytes_applies
    fun p _ _ _ h => congrArg (mixColumns p _) (shiftRows_congr h)

theorem decRound_stages_apply : AllApplyToState [.invMixColumns, .invShiftRows, .invSubBytes] decRound :=
  (invSubBytes_applies.allApply_singleton.cons invShiftRows_applies invSubBytes_congr).cons
    invMixColumns_applies fun p _ _ _ h => congrArg (invSubBytes p _) (invShiftRows_congr h)

/-- A command and a run of commands that apply one function to STATE leave the same state, which differs from
the old one in the nb words of STATE and LAST_ERR only. -/
theorem AppliesToState.writesState_execAll {i : Instr} {is : List Instr} {f : Params → Nat → Block → Block}
    (hi : AppliesToState i f) (his : AllApplyToState is f) {s : State} (hlc : s.lc ≠ .none) :
    WritesState i s fun v => execAll is s = .next { s with state := v, lastErr := .ok } := by
  refine ⟨_, hi s hlc, fun k hk => ?above, his s hlc⟩
  case above => rw [word_putState, if_neg (by omega)]

/-- Settles O28: a round command and its three stages apply the same function to STATE. -/
theorem roundCommandsAreTheirStages : Obligations.RoundCommandsAreTheirStages := fun _ hlc =>
  ⟨encRound_applies.writesState_execAll encRound_stages_apply hlc,
    decRound_applies.writesState_execAll decRound_stages_apply hlc⟩

end Sys2Proof.Machine

/-!
The key schedule (rules R280 to R293): what KEY_EXPAND writes, what the round keys depend on, and each round key
in the words of the key: an even key through its window and its counter, an odd key through the key before it.
-/
namespace Sys2Proof.Machine

open Sys2Proof.Claims

/-- RK[j] after KEY_EXPAND is the key schedule's. -/
theorem block_expanded_rk (s : State) (j : Nat) : RkFile.block (expanded (scheduleOf s) s).rk j =
    RkFile.block (keySchedule s.params s.cols s.nk.toNat s.nr.toNat s.keyIn s.rk).rk j := rfl

/-- Settles O30: the frame of the schedule, and its independence of what the round-key file held. -/
theorem keyExpandCommand : Obligations.KeyExpandCommand := by
  intro s hlc hconf
  obtain ⟨-, -, -, heven, -, h19⟩ := configured_cases hconf
  refine ⟨_, exec_keyExpand hlc, rfl, fun i hi => ?stateTail, fun j i h => ?rkTail, fun j hj i hi => ?keys⟩
  case stateTail => exact (word_putState s _ i).trans (if_neg (by omega))
  case rkTail => exact keySchedule_frame s.params heven s.keyIn s.rk h
  case keys => exact keySchedule_congr s.params heven h19 s.keyIn s.rk zeroRk hj hi

/-! ## What the schedule depends on -/

/-- Two parameter records with the same tables and values that the key schedule reads (R291). -/
structure SameScheduleParams (p p' : Params) : Prop where
  sbox : p'.sbox = p.sbox
  mds : p'.mds = p.mds
  ksRotation : p'.ksRotation = p.ksRotation

namespace SameScheduleParams

variable {p p' : Params} (h : SameScheduleParams p p')
include h

theorem encRound_eq (nb : Nat) (S : Block) : encRound p' nb S = encRound p nb S := by
  simp only [encRound, mixColumns, subBytes, Params.sboxAt, h.sbox, h.mds]

theorem ktDerive_eq (nb nk : Nat) (key : Block) : ktDerive p' nb nk key = ktDerive p nb nk key := by
  simp only [ktDerive, h.encRound_eq]

theorem evenStep_eq (nb idx lo : Nat) (k : Sched) : evenStep p' nb idx lo k = evenStep p nb idx lo k := by
  simp only [evenStep, evenKey, h.encRound_eq]

theorem evenLoop_eq (nb nk nr n idx : Nat) (k : Sched) :
    evenLoop p' nb nk nr n idx k = evenLoop p nb nk nr n idx k := by
  induction n generalizing idx k with
  | zero => rfl
  | succ n ih => simp only [evenLoop, h.evenStep_eq, h.ksRotation, ih]

theorem keySchedule_eq (nb nk nr : Nat) (key : Block) (rk : RkFile) :
    keySchedule p' nb nk nr key rk = keySchedule p nb nk nr key rk := by
  simp only [keySchedule, h.ktDerive_eq, h.evenLoop_eq]

end SameScheduleParams

/-- Settles O31: the two states run one schedule on one key, over two round-key files. -/
theorem keyScheduleDependsOnKeyAlone : Obligations.KeyScheduleDependsOnKeyAlone := by
  intro s s' t t' hlc hlc' hconf hnb hnk hnr hsbox hmds hks hkey ht ht' j hj i hi
  cases (exec_keyExpand hlc).symm.trans ht
  cases (exec_keyExpand hlc').symm.trans ht'
  obtain ⟨-, -, -, heven, -, h19⟩ := configured_cases hconf
  have params : SameScheduleParams s.params s'.params := ⟨hsbox, hmds, hks⟩
  have key : s'.keyIn = s.keyIn := by
    rw [State.keyIn, hnk]
    exact window_congr hkey
  have cols : s'.cols = s.cols := congrArg BitVec.toNat hnb
  rw [block_expanded_rk, block_expanded_rk, params.keySchedule_eq, key, cols, hnk, hnr]
  exact keySchedule_congr s.params heven h19 s.keyIn s'.rk s.rk hj hi

/-! ## The odd round keys -/

/-- The odd loop writes to RK[j] the rotation of what RK[j-1] held before it (R287). -/
theorem agreeBelow_oddLoop {nb j : Nat} (hj : j < 19) :
    ∀ (n i : Nat) (rk : RkFile), j % 2 = i % 2 → i ≤ j → j < i + 2 * n →
      AgreeBelow nb (RkFile.block (oddLoop nb n i rk) j)
        (rotBytes nb (2 * nb + 3) (RkFile.block rk (j - 1))) := by
  intro n
  induction n with
  | zero => intro i rk _ _ _; omega
  | succ n ih =>
    intro i rk hpar hle hlt l hl
    rw [oddLoop]
    by_cases hji : j = i
    · subst hji
      exact (oddLoop_frame n (j + 2) _ (by omega)).trans
        ((RkFile.word_write _ _ _ _ _ _).trans (if_pos ⟨rfl, hj, hl⟩))
    · rw [ih (i + 2) _ (by omega) (by omega) (by omega) l hl, RkFile.block_write, if_neg (by omega)]

/-- Every odd key of the schedule is the rotation of the even key before it, on their words below nb (R287). -/
theorem agreeBelow_keySchedule_odd (p : Params) {nb nk nr : Nat} (h19 : nr < 19) (key : Block) (rk : RkFile)
    {i : Nat} (hodd : i % 2 = 1) (hi : i < nr) :
    AgreeBelow nb (RkFile.block (keySchedule p nb nk nr key rk).rk i)
      (rotBytes nb (2 * nb + 3) (RkFile.block (keySchedule p nb nk nr key rk).rk (i - 1))) := by
  rw [keySchedule_eq]
  have before : ∀ rk', AgreeBelow nb (RkFile.block (oddLoop nb (nr / 2) 1 rk') (i - 1))
      (RkFile.block rk' (i - 1)) := fun _ _ _ => oddLoop_frame _ _ _ (by omega)
  rw [rotBytes_congr _ (before _)]
  exact agreeBelow_oddLoop (by omega) _ _ _ hodd (by omega) (by omega)

/-- Settles O34, byte by byte from the rotation that stage 3 writes. -/
theorem oddRoundKeysAreRotations : Obligations.OddRoundKeysAreRotations := by
  intro s t hlc hconf ht i hodd hi k hk
  cases (exec_keyExpand hlc).symm.trans ht
  obtain ⟨-, -, -, -, -, h19⟩ := configured_cases hconf
  rw [block_expanded_rk, block_expanded_rk,
    byte_congr (agreeBelow_keySchedule_odd s.params h19 s.keyIn s.rk hodd hi) hk]
  exact Block.byte_ofBytes s.cols _ (cols_le_eight hconf) hk

/-! ## The even round keys -/

/-- The n words of an nk-word key from word lo on, around the end of the key. -/
def keyWords (n nk lo : Nat) (key : Block) : Block :=
  Block.ofWords n fun i => Block.word key ((lo + i) % nk)

/-- A window of the key at a start below its end, read of the rotated key (R284). -/
theorem window_keyWords {n nk lo off : Nat} (key : Block) (hoff : off + n ≤ nk) (h8 : nk ≤ 8) :
    window n off (keyWords nk nk lo key) = keyWords n nk (lo + off) key :=
  ofWords_congr fun i hi _ => by
    rw [keyWords, word_ofWords_of_lt _ (by omega) (by omega), Nat.add_assoc]

/-- A rotation left by m words starts m words later (R285). -/
theorem rotWords_keyWords {nk : Nat} (lo m : Nat) (key : Block) (h8 : nk ≤ 8) :
    rotWords nk m (keyWords nk nk lo key) = keyWords nk nk (lo + m) key :=
  ofWords_congr fun i hi _ => by
    have hlt : (i + m) % nk < nk := Nat.mod_lt _ (by omega)
    rw [keyWords, word_ofWords_of_lt _ hlt (by omega), Nat.add_mod_mod, Nat.add_assoc, Nat.add_comm m i]

/-- Starts that are the same word of the key give the same words. -/
theorem keyWords_congr_start {n nk lo lo' : Nat} (key : Block) (h : lo % nk = lo' % nk) :
    keyWords n nk lo key = keyWords n nk lo' key :=
  ofWords_congr fun i _ _ => by rw [Nat.add_mod, h, ← Nat.add_mod]

/-- The words of the key are read of KEY[0..nk-1] alone (R84). -/
theorem keyWords_keyIn {s : State} (hnk : 0 < s.nk.toNat) (n lo : Nat) :
    keyWords n s.nk.toNat lo s.keyIn = keyWords n s.nk.toNat lo s.key :=
  ofWords_congr fun _ _ _ => agreeBelow_window s.nk.toNat s.key _ (Nat.mod_lt _ hnk)

theorem window_eq_keyWords (nk : Nat) (key : Block) : window nk 0 key = keyWords nk nk 0 key :=
  ofWords_congr fun i hi _ => by rw [Nat.zero_add, Nat.mod_eq_of_lt hi]

/-- The counter tmv after m shifts (R284). -/
def tmvAt (nb m : Nat) : Block := Block.ofWords nb fun _ => (0x0001000100010001 : Word) <<< m

theorem tmvInit_eq (nb : Nat) : tmvInit nb = tmvAt nb 0 := rfl

theorem shiftTmv_tmvAt (nb m : Nat) : shiftTmv nb (tmvAt nb m) = tmvAt nb (m + 1) :=
  ofWords_congr fun i hi h8 => by rw [tmvAt, word_ofWords_of_lt _ hi h8, BitVec.shiftLeft_add]

theorem windowStart_zero (ks : KsRotation) (nb nk : Nat) : windowStart ks nb nk 0 = 0 := by
  cases ks <;> simp [windowStart]

/-- Single-length keys: the rotation between two even keys moves the window to its next start (R292). -/
theorem rotateKey_single (ks : KsRotation) {nb : Nat} (m : Nat) (key : Block) (h8 : nb ≤ 8) :
    rotateKey ks nb nb (keyWords nb nb (windowStart ks nb nb m) key) =
      keyWords nb nb (windowStart ks nb nb (m + 1)) key := by
  cases ks with
  | doc => simp [rotateKey, windowStart]
  | ref1w => simp [rotateKey, windowStart, rotWords_keyWords _ _ _ h8]

/-- DOC, double-length keys: the first window of a pair is alternately the low and the high half (R292). -/
theorem windowStart_doc_cases {nb nk m : Nat} (hne : nk ≠ nb) (hm : m % 2 = 0) :
    (windowStart .doc nb nk m = 0 ∧ windowStart .doc nb nk (m + 1) = nb ∧
      windowStart .doc nb nk (m + 2) = nb) ∨
    (windowStart .doc nb nk m = nb ∧ windowStart .doc nb nk (m + 1) = 0 ∧
      windowStart .doc nb nk (m + 2) = 0) := by
  simp only [windowStart, if_neg hne]
  rcases (by omega : m % 4 = 0 ∨ m % 4 = 2) with h | h
  · exact .inl ⟨if_pos (by omega), if_neg (by omega), if_neg (by omega)⟩
  · exact .inr ⟨if_neg (by omega), if_pos (by omega), if_pos (by omega)⟩

/-- REF1W, double-length keys: the second window of a pair starts nb words after the first, and the next pair
starts one word later (R292). -/
theorem windowStart_ref1w_double {nb nk m : Nat} (hne : nk ≠ nb) (hm : m % 2 = 0) :
    windowStart .ref1w nb nk (m + 1) = windowStart .ref1w nb nk m + nb ∧
      windowStart .ref1w nb nk (m + 2) = windowStart .ref1w nb nk m + 1 := by
  have hm1 : (m + 1) % 2 = 1 := by omega
  have hm2 : (m + 2) % 2 = 0 := by omega
  simp only [windowStart, if_neg hne, hm, hm1, hm2, Nat.zero_mul, Nat.one_mul]
  omega

/-- Double-length keys: the second window of a pair starts nb words after the first (R284, R292). -/
theorem windowStart_second (ks : KsRotation) {nb nk m : Nat} (hne : nk ≠ nb) (hnk : nk = 2 * nb)
    (hm : m % 2 = 0) : (windowStart ks nb nk m + nb) % nk = windowStart ks nb nk (m + 1) % nk := by
  cases ks with
  | doc =>
    rcases windowStart_doc_cases hne hm with ⟨h0, h1, -⟩ | ⟨h0, h1, -⟩
    · rw [h0, h1, Nat.zero_add]
    · rw [h0, h1, ← two_mul, ← hnk, Nat.mod_self, Nat.zero_mod]
  | ref1w => rw [(windowStart_ref1w_double hne hm).1]

/-- Double-length keys: the rotation between two pairs moves the first window to its next start (R292). -/
theorem rotateKey_double (ks : KsRotation) {nb nk m : Nat} (key : Block) (hne : nk ≠ nb) (hnk : nk = 2 * nb)
    (h8 : nk ≤ 8) (hm : m % 2 = 0) :
    rotateKey ks nb nk (keyWords nk nk (windowStart ks nb nk m) key) =
      keyWords nk nk (windowStart ks nb nk (m + 2)) key := by
  cases ks with
  | doc =>
    simp only [rotateKey, if_neg hne, rotWords_keyWords _ _ _ h8]
    refine keyWords_congr_start key ?_
    rw [windowStart_second .doc hne hnk hm]
    rcases windowStart_doc_cases hne hm with ⟨-, h1, h2⟩ | ⟨-, h1, h2⟩ <;> rw [h1, h2]
  | ref1w => simp only [rotateKey, rotWords_keyWords _ _ _ h8, (windowStart_ref1w_double hne hm).2]

/-- RK[2m] of R284 and R292: the even-key core of the window of the key under Kt +64 (tmv << m). -/
def evenRoundKey (p : Params) (nb nk : Nat) (key : Block) (m : Nat) : Block :=
  evenKey p nb (keyWords nb nk (windowStart p.ksRotation nb nk m) key)
    (addKey nb (ktDerive p nb nk key) (tmvAt nb m))

/-- The even round keys before RK[2m] are in the file. -/
def HasEvenKeys (p : Params) (nb nk : Nat) (key : Block) (m : Nat) (rk : RkFile) : Prop :=
  ∀ j < m, AgreeBelow nb (RkFile.block rk (2 * j)) (evenRoundKey p nb nk key j)

/-- Stage 2 before the even step that writes RK[2m], with initial_data the key from word lo on (R284). -/
structure BeforeEvenKey (p : Params) (nb nk : Nat) (key : Block) (m lo : Nat) (k : Sched) : Prop where
  kt : k.kt = ktDerive p nb nk key
  tmv : k.tmv = tmvAt nb m
  initialData : k.initialData = keyWords nk nk lo key
  keys : HasEvenKeys p nb nk key m k.rk

namespace BeforeEvenKey

variable {p : Params} {nb nk : Nat} {key : Block} {m lo : Nat} {k : Sched}

/-- Stage 2 starts before RK[0] (R284). -/
theorem stageTwoStart (p : Params) (nb nk : Nat) (key : Block) (rk : RkFile) :
    BeforeEvenKey p nb nk key 0 (windowStart p.ksRotation nb nk 0)
      (Machine.stageTwoStart p nb nk key rk) where
  kt := rfl
  tmv := tmvInit_eq nb
  initialData := by rw [windowStart_zero, ← window_eq_keyWords]; rfl
  keys := nofun

section EvenStep

variable (h : BeforeEvenKey p nb nk key m lo k) {off : Nat} (hoff : off + nb ≤ nk) (h8 : nk ≤ 8)
  (hlo : (lo + off) % nk = windowStart p.ksRotation nb nk m % nk)
include h hoff h8 hlo

/-- An even step on the window that R292 gives writes the even key (R284). -/
theorem evenStep_state : (evenStep p nb (2 * m) off k).state = evenRoundKey p nb nk key m := by
  simp only [evenStep, evenRoundKey, h.kt, h.tmv, h.initialData, window_keyWords key hoff h8,
    keyWords_congr_start key hlo]

theorem evenStep_keys (hm : 2 * m < 19) : HasEvenKeys p nb nk key (m + 1) (evenStep p nb (2 * m) off k).rk := by
  intro j hj i hi
  refine (rkWord_evenStep p nb (2 * m) off k (2 * j) i).trans ?_
  by_cases hjm : j = m
  · subst hjm
    rw [if_pos ⟨rfl, hm, hi⟩, evenStep_state h hoff h8 hlo]
  · rw [if_neg (by omega)]
    exact h.keys j (by omega) i hi

/-- The shift of tmv after an even step makes it ready for the next one (R284). -/
theorem shiftTmv (hm : 2 * m < 19) : BeforeEvenKey p nb nk key (m + 1) lo
    { evenStep p nb (2 * m) off k with tmv := shiftTmv nb (evenStep p nb (2 * m) off k).tmv } where
  kt := h.kt
  tmv := (congrArg (Machine.shiftTmv nb) h.tmv).trans (shiftTmv_tmvAt nb m)
  initialData := h.initialData
  keys := evenStep_keys h hoff h8 hlo hm

end EvenStep

/-- The rotation between iterations moves the start of initial_data and nothing else (R285). -/
theorem rotateKey (h : BeforeEvenKey p nb nk key m lo k) {ks : KsRotation} {lo' : Nat}
    (hrot : rotateKey ks nb nk (keyWords nk nk lo key) = keyWords nk nk lo' key) :
    BeforeEvenKey p nb nk key m lo' { k with initialData := rotateKey ks nb nk k.initialData } :=
  ⟨h.kt, h.tmv, (congrArg (Machine.rotateKey ks nb nk) h.initialData).trans hrot, h.keys⟩

end BeforeEvenKey

/-- Stage 2 from RK[2m] on, at the start of an iteration, ends with every even key up to RK[nr] in the file
(R284). -/
theorem hasEvenKeys_evenLoop (p : Params) {nb nk nr : Nat} (key : Block) (hnk : nk = nb ∨ nk = 2 * nb)
    (h8 : nk ≤ 8) (hnr : nr % 2 = 0) (h19 : nr < 19) :
    ∀ (n m : Nat) (k : Sched), BeforeEvenKey p nb nk key m (windowStart p.ksRotation nb nk m) k →
      (nk = nb ∨ m % 2 = 0) → 2 * m ≤ nr → nr < 2 * m + 2 * n →
      HasEvenKeys p nb nk key (nr / 2 + 1) (evenLoop p nb nk nr n (2 * m) k).rk := by
  intro n
  induction n with
  | zero => intro m k _ _ _ _; omega
  | succ n ih =>
    intro m k h hpair hle hlt
    have first := h.shiftTmv (off := 0) (by omega) h8 rfl (by omega)
    rw [evenLoop]
    split
    case isTrue hlast =>
      rw [← hlast, Nat.mul_div_cancel_left m two_pos]
      exact h.evenStep_keys (by omega) h8 rfl (by omega)
    case isFalse hlast =>
      split
      case isTrue hsingle =>
        subst hsingle
        exact ih (m + 1) _ (first.rotateKey (rotateKey_single _ m key h8)) (.inl rfl) (by omega) (by omega)
      case isFalse hdouble =>
        have hm : m % 2 = 0 := hpair.resolve_left hdouble
        have hnk2 : nk = 2 * nb := hnk.resolve_left hdouble
        have hlo := windowStart_second p.ksRotation hdouble hnk2 hm
        split
        case isTrue hlast2 =>
          rw [← hlast2, show (2 * m + 2) / 2 = m + 1 by omega]
          exact first.evenStep_keys (by omega) h8 hlo (by omega)
        case isFalse hlast2 =>
          have second := first.shiftTmv (off := nb) (by omega) h8 hlo (by omega)
          exact ih (m + 2) _ (second.rotateKey (rotateKey_double _ key hdouble hnk2 h8 hm)) (.inr (by omega))
            (by omega) (by omega)

/-- Stage 3 leaves the even keys of stage 2 (R287). -/
theorem hasEvenKeys_keySchedule (p : Params) {nb nk nr : Nat} (key : Block) (rk : RkFile)
    (hnk : nk = nb ∨ nk = 2 * nb) (h8 : nk ≤ 8) (hnr : nr % 2 = 0) (h19 : nr < 19) :
    HasEvenKeys p nb nk key (nr / 2 + 1) (keySchedule p nb nk nr key rk).rk := by
  intro j hj i hi
  rw [keySchedule_eq]
  exact (oddLoop_frame (j := 2 * j) _ _ _ (by omega)).trans
    (hasEvenKeys_evenLoop p key hnk h8 hnr h19 10 0 _ (.stageTwoStart p nb nk key rk) (.inr rfl) (Nat.zero_le _)
      (by omega) j hj i hi)

/-- Settles O32: the loop of stage 2 writes each even key from its window and counter, and stage 3 keeps it. -/
theorem evenRoundKeysUseTheirWindows : Obligations.EvenRoundKeysUseTheirWindows := by
  intro s t hlc hconf ht m hm i hi
  cases (exec_keyExpand hlc).symm.trans ht
  obtain ⟨-, hnk, h8, heven, -, h19⟩ := configured_cases hconf
  rw [block_expanded_rk,
    hasEvenKeys_keySchedule s.params s.keyIn s.rk hnk h8 heven h19 m (by omega) i hi, evenRoundKey,
    keyWords_keyIn (by omega)]
  rfl

end Sys2Proof.Machine

/-!
The drivers (rules R321, R322) by their component commands: after LOAD_STATE, each command writes its function of
the STATE before it, and `written` names the state it leaves.
-/
namespace Sys2Proof.Machine

open Sys2Proof.Claims

/-- The state a command that writes S to STATE and does nothing else leaves (R15, R345). -/
def written (s : State) (S : Block) : State := { s.putState S with lastErr := .ok }

theorem agreeBelow_written (s : State) (S : Block) : AgreeBelow s.cols (written s S).state S :=
  agreeBelow_merge s.cols S s.state

/-- A second write leaves nothing of the first. -/
theorem written_written (s : State) (S T : Block) : written (written s S) T = written s T :=
  congrArg (fun v => ({ s with state := v, lastErr := .ok } : State)) (merge_merge s.cols T S s.state)

theorem execAll_append {is js : List Instr} {s t : State} (h : execAll is s = .next t) :
    execAll (is ++ js) s = execAll js t := by
  induction is generalizing s with
  | nil =>
    cases h
    rfl
  | cons i is ih =>
    obtain ⟨u, hu⟩ := exec_next i s
    simp only [execAll, hu, List.cons_append] at h ⊢
    exact ih h

/-- Where S was written, the commands of the list write T. -/
def Rewrites (s : State) (is : List Instr) (S T : Block) : Prop :=
  execAll is (written s S) = .next (written s T)

theorem Rewrites.append {s : State} {is js : List Instr} {S T U : Block} (h : Rewrites s is S T)
    (h' : Rewrites s js T U) : Rewrites s (is ++ js) S U :=
  (execAll_append h).trans h'

/-- One command that writes a function of STATE, which reads the words below nb only. -/
theorem rewrites_singleton {i : Instr} {s : State} {S : Block} {f : Block → Block}
    (hi : exec i (written s S) = .next (written (written s S) (f (written s S).state)))
    (hf : ∀ {T}, AgreeBelow s.cols T S → f T = f S) : Rewrites s [i] S (f S) := by
  rw [hf (agreeBelow_written s S), written_written] at hi
  simp only [Rewrites, execAll, hi]

section
variable {s : State} (hlc : s.lc = .keyExpanded) (S : Block)
include hlc

theorem rewrites_encRound : Rewrites s [.encRound] S (encRound s.params s.cols S) :=
  rewrites_singleton (encRound_applies (written s S) (by simp [written, hlc])) (encRound_congr s.params)

theorem rewrites_decRound : Rewrites s [.decRound] S (decRound s.params s.cols S) :=
  rewrites_singleton (decRound_applies (written s S) (by simp [written, hlc])) (decRound_congr s.params)

variable {j : Nat} (hj : j ≤ s.nr.toNat)
include hj

theorem rewrites_addRk : Rewrites s [.addRk j] S (addKey s.cols S (s.roundKey j)) :=
  rewrites_singleton (f := (addKey s.cols · (s.roundKey j))) (guarded_in_range (s := written s S) _ rfl hlc hj)
    (addKey_congr · (.rfl' _))

theorem rewrites_subRk : Rewrites s [.subRk j] S (subKey s.cols S (s.roundKey j)) :=
  rewrites_singleton (f := (subKey s.cols · (s.roundKey j))) (guarded_in_range (s := written s S) _ rfl hlc hj)
    (subKey_congr · (.rfl' _))

theorem rewrites_xorRk : Rewrites s [.xorRk j] S (xorKey s.cols S (s.roundKey j)) :=
  rewrites_singleton (f := (xorKey s.cols · (s.roundKey j))) (guarded_in_range (s := written s S) _ rfl hlc hj)
    (xorKey_congr · (.rfl' _))

end

/-- The interior rounds of R321, by their commands. -/
theorem rewrites_encRounds {s : State} (hlc : s.lc = .keyExpanded) (S : Block) {n : Nat} (hn : n ≤ s.nr.toNat) :
    Rewrites s ((List.range n).flatMap fun r => [.encRound, .xorRk (r + 1)]) S
      (encRounds s.params s.cols s.rk n 1 S) := by
  induction n with
  | zero => rfl
  | succ n ih =>
    rw [List.range_succ, List.flatMap_append, List.flatMap_singleton, encRounds_succ_last, Nat.add_comm 1 n]
    exact (ih (by omega)).append ((rewrites_encRound hlc _).append (rewrites_xorRk hlc _ hn))

/-- The interior rounds of R322, by their commands. -/
theorem rewrites_decRounds {s : State} (hlc : s.lc = .keyExpanded) (S : Block) {n : Nat} (hn : n ≤ s.nr.toNat) :
    Rewrites s ((List.range n).flatMap fun r => [.decRound, .xorRk (n - r)]) S
      (decRounds s.params s.cols s.rk n S) := by
  induction n generalizing S with
  | zero => rfl
  | succ n ih =>
    rw [List.range_succ_eq_map, List.flatMap_cons, List.flatMap_map]
    simp only [Nat.succ_sub_succ_eq_sub]
    exact ((rewrites_decRound hlc S).append (rewrites_xorRk hlc _ hn)).append (ih _ (by omega))

/-- LOAD_STATE writes DIN, and the commands after it start from there. -/
theorem execAll_loadState_cons {is : List Instr} {s : State} {T : Block} (hlc : s.lc ≠ .none)
    (h : Rewrites s is s.dataIn T) : execAll (.loadState :: is) s = .next (written s T) := by
  simp only [execAll, loadState_mixesDin s hlc]
  exact h

/-- A command leaves what a list of commands leaves, if both leave the state where one block was written. -/
theorem writesState_execAll_of_written {i : Instr} {is : List Instr} {s : State} {S : Block}
    (hi : exec i s = .next (written s S)) (his : execAll is s = .next (written s S)) :
    WritesState i s fun v => execAll is s = .next { s with state := v, lastErr := .ok } := by
  refine ⟨_, hi, fun k hk => ?above, his⟩
  case above => rw [word_putState, if_neg (by omega)]

/-- Settles O37: the commands after LOAD_STATE write the steps of E_K and D_K one after another. -/
theorem driversAreTheirComponents : Obligations.DriversAreTheirComponents := by
  intro s hlc hconf
  have context : s.lc ≠ .none := by simp [hlc]
  constructor
  case left =>
    refine writesState_execAll_of_written (exec_encipher hlc) (execAll_loadState_cons context ?_)
    have whitened := rewrites_addRk hlc s.dataIn (Nat.zero_le s.nr.toNat)
    have rounds := whitened.append (rewrites_encRounds hlc _ (Nat.sub_le s.nr.toNat 1))
    exact rounds.append ((rewrites_encRound hlc _).append (rewrites_addRk hlc _ le_rfl))
  case right =>
    refine writesState_execAll_of_written (exec_decipher hlc) (execAll_loadState_cons context ?_)
    have whitened := rewrites_subRk hlc s.dataIn (le_refl s.nr.toNat)
    have rounds := whitened.append (rewrites_decRounds hlc _ (Nat.sub_le s.nr.toNat 1))
    exact rounds.append ((rewrites_decRound hlc _).append (rewrites_subRk hlc _ (Nat.zero_le s.nr.toNat)))

end Sys2Proof.Machine

/-!
Command errors (rules R341 to R348): a command ends with its first error, which changes LAST_ERR and ERR_SEEN
only, or completes; and no command reads LAST_ERR.
-/
namespace Sys2Proof.Machine

open Sys2Proof.Claims

/-! ## What decides how a command ends -/

/-- The sets of R108 as written out are those of its column. -/
theorem lifecycleAllows_iff {i : Instr} {lc : Lifecycle} :
    lifecycleAllows i lc ↔ i.op.requires.allows lc = true := by
  have context : (lc = .created ∨ lc = .keyExpanded) ↔ LcReq.context.allows lc = true := by
    cases lc <;> decide
  cases i with
  | init _ _ | teardown | gfMul _ _ | sbox _ _ | invSbox _ _ => exact iff_of_true trivial rfl
  | encipher | decipher | addRk _ | subRk _ | xorRk _ => exact allows_expanded_iff.symm
  | _ => exact context

/-- Sizes that are a legal pair are those of a configuration (R6, R142). -/
theorem exists_conf_of_legalPair {blk keyb : Nat} (h : LegalPair blk keyb) :
    ∃ cf : Conf, blk = cf.blockBits ∧ keyb = cf.keyBits := by
  rcases h with h | h | h | h | h
  · exact ⟨.b128k128, h⟩
  · exact ⟨.b128k256, h⟩
  · exact ⟨.b256k256, h⟩
  · exact ⟨.b256k512, h⟩
  · exact ⟨.b512k512, h⟩

/-- Every command makes its lifecycle check before anything else (R343, R346). -/
theorem exec_eq_guarded (i : Instr) (s : State) : ∃ r, exec i s = guarded i.op s r := by
  cases i <;> exact ⟨_, rfl⟩

section
variable {i : Instr} {s : State}

/-- A command outside its lifecycle set fails (R343). -/
theorem fails_of_not_lifecycleAllows (h : ¬ lifecycleAllows i s.lc) : Fails i s .invalidState := by
  obtain ⟨r, hr⟩ := exec_eq_guarded i s
  rw [lifecycleAllows_iff, Bool.not_eq_true] at h
  exact hr.trans (guarded_of_not_allowed r h)

variable (hlc : lifecycleAllows i s.lc)
include hlc

/-- In its lifecycle set, a command whose operand's value is wrong fails (R341). -/
theorem fails_of_operandError {e : ErrorCode} (h : OperandError i s e) : Fails i s e := by
  cases i with
  | init blk keyb =>
    obtain ⟨hpair, rfl⟩ := h
    exact exec_init_of_ofSizes_none (ofSizes_eq_none hpair) s
  | addRk j | subRk j | xorRk j =>
    obtain ⟨hj, rfl⟩ := h
    exact guarded_range _ rfl hlc hj
  | _ => cases h

/-- In its lifecycle set, a command without an operand error completes (R345). -/
theorem completes_of_no_operandError (h : ∀ e, ¬ OperandError i s e) :
    ∃ u : State, exec i s = complete u ∧ u.errSeen = s.errSeen := by
  have allowed := lifecycleAllows_iff.1 hlc
  cases i with
  | init blk keyb =>
    have hpair : LegalPair blk keyb := not_not.1 fun hn => h _ ⟨hn, rfl⟩
    obtain ⟨cf, rfl, rfl⟩ := exists_conf_of_legalPair hpair
    exact ⟨initialised cf s, exec_init_sizes cf s, rfl⟩
  | addRk j | subRk j | xorRk j =>
    have hj : j ≤ s.nr.toNat := not_lt.1 fun hlt => h _ ⟨hlt, rfl⟩
    exact ⟨_, guarded_in_range _ rfl hlc hj, rfl⟩
  | _ => exact ⟨_, guarded_of_allowed _ allowed, rfl⟩

end

/-! ## The first error of a command word -/

/-- The check of an operand's value fails with one of two errors (R341). -/
theorem operandError_code {i : Instr} {s : State} {e : ErrorCode} (h : OperandError i s e) :
    e = .unsupportedConfiguration ∨ e = .range := by
  cases i with
  | init _ _ => exact .inl h.2
  | addRk _ | subRk _ | xorRk _ => exact .inr h.2
  | _ => cases h

/-- Some error applies first, or none applies. -/
theorem exists_firstError (c : Word) (s : State) : ∃ e, FirstError c s e := by
  unfold FirstError
  split
  · exact ⟨_, rfl⟩
  · next i _ =>
    by_cases hlc : lifecycleAllows i s.lc
    · by_cases herr : ∃ e, OperandError i s e
      · obtain ⟨e, he⟩ := herr
        exact ⟨e, .inr (.inl ⟨hlc, he⟩)⟩
      · exact ⟨_, .inr (.inr ⟨hlc, not_exists.1 herr, rfl⟩)⟩
    · exact ⟨_, .inl ⟨hlc, rfl⟩⟩

theorem firstError_ne_allocationFailure {c : Word} {s : State} {e : ErrorCode} (h : FirstError c s e) :
    e ≠ .allocationFailure := by
  unfold FirstError at h
  split at h
  · simp [h]
  · rcases h with ⟨-, rfl⟩ | ⟨-, h⟩ | ⟨-, -, rfl⟩
    · decide
    · rcases operandError_code h with rfl | rfl <;> decide
    · decide

/-- A command word whose first error is e ends with e and changes nothing else but ERR_SEEN (R344, R346). -/
theorem runCommand_of_firstError {c : Word} {s : State} {e : ErrorCode} (h : FirstError c s e) (he : e ≠ .ok) :
    runCommand c s = .next { s with lastErr := e, errSeen := true } := by
  unfold FirstError at h
  split at h
  · next hc =>
    rw [h]
    exact runCommand_of_decode_error hc s
  · next i hc =>
    rw [runCommand_of_decode hc]
    rcases h with ⟨hlc, rfl⟩ | ⟨hlc, h⟩ | ⟨-, -, rfl⟩
    · exact fails_of_not_lifecycleAllows hlc
    · exact fails_of_operandError hlc h
    · exact absurd rfl he

/-- A command word to which no error applies completes (R345). -/
theorem runCommand_of_no_firstError {c : Word} {s : State} (h : FirstError c s .ok) :
    ∃ t : State, runCommand c s = .next t ∧ t.lastErr = .ok ∧ t.errSeen = s.errSeen := by
  unfold FirstError at h
  split at h
  · cases h
  · next i hc =>
    rw [runCommand_of_decode hc]
    rcases h with ⟨-, h⟩ | ⟨-, h⟩ | ⟨hlc, h, -⟩
    · cases h
    · rcases operandError_code h with h | h <;> cases h
    · obtain ⟨u, hu, hseen⟩ := completes_of_no_operandError hlc h
      exact ⟨_, hu, rfl, hseen⟩

theorem runCommand_lastErr_of_firstError {c : Word} {s t : State} {e : ErrorCode} (h : FirstError c s e)
    (ht : runCommand c s = .next t) : t.lastErr = e := by
  by_cases he : e = .ok
  · subst he
    obtain ⟨u, hu, hok, -⟩ := runCommand_of_no_firstError h
    cases hu.symm.trans ht
    exact hok
  · cases (runCommand_of_firstError h he).symm.trans ht
    rfl

/-- LAST_ERR after a command word is its first error (R346). -/
theorem firstError_lastErr {c : Word} {s t : State} (ht : runCommand c s = .next t) :
    FirstError c s t.lastErr := by
  obtain ⟨e, he⟩ := exists_firstError c s
  rwa [runCommand_lastErr_of_firstError he ht]

/-- A command word that ended with an error changed LAST_ERR and ERR_SEEN only (R344). -/
theorem eq_of_runCommand_of_lastErr {c : Word} {s t : State} (ht : runCommand c s = .next t)
    (herr : t.lastErr ≠ .ok) : t = { s with lastErr := t.lastErr, errSeen := true } := by
  have failed := runCommand_of_firstError (firstError_lastErr ht) herr
  exact Host.Outcome.next.inj (ht.symm.trans failed)

/-- A command word that ended without an error left ERR_SEEN as it was (R345). -/
theorem runCommand_errSeen {c : Word} {s t : State} (ht : runCommand c s = .next t) (hok : t.lastErr = .ok) :
    t.errSeen = s.errSeen := by
  obtain ⟨u, hu, -, hseen⟩ := runCommand_of_no_firstError (hok ▸ firstError_lastErr ht)
  cases hu.symm.trans ht
  exact hseen

/-- Settles O40: outside its set a command fails, inside it the first error is no lifecycle error. -/
theorem lifecycleCheck : Obligations.LifecycleCheck := by
  intro i s
  refine ⟨fails_of_not_lifecycleAllows, fun hlc => ?_⟩
  by_cases herr : ∃ e, OperandError i s e
  · obtain ⟨e, he⟩ := herr
    refine ⟨_, fails_of_operandError hlc he, ?_⟩
    rcases operandError_code he with rfl | rfl <;> simp
  · obtain ⟨u, hu, -⟩ := completes_of_no_operandError hlc (not_exists.1 herr)
    exact ⟨_, hu, by simp⟩

/-- Settles O41, by the first error of the word. -/
theorem errorsArePrecise : Obligations.ErrorsArePrecise := by
  intro c s
  obtain ⟨t, ht⟩ := runCommand_next c s
  exact ⟨t, ht, eq_of_runCommand_of_lastErr ht, runCommand_errSeen ht⟩

/-- Settles O42: the word leaves its first error, so there is only one. -/
theorem firstErrorIsReported : Obligations.FirstErrorIsReported := by
  intro c s
  obtain ⟨t, ht⟩ := runCommand_next c s
  have first := firstError_lastErr ht
  exact ⟨t, ht, first, fun e he => (runCommand_lastErr_of_firstError he ht).symm,
    firstError_ne_allocationFailure first⟩

/-! ## Sticky bits, and commands after an error -/

/-- From s to t the sticky bits of STATUS stay set (R43, R348). -/
structure KeepsSticky (s t : State) : Prop where
  errSeen : s.errSeen = true → t.errSeen = true
  protoErr : s.protoErr = true → t.protoErr = true

theorem KeepsSticky.trans {s t u : State} (h : KeepsSticky s t) (h' : KeepsSticky t u) : KeepsSticky s u :=
  ⟨h'.errSeen ∘ h.errSeen, h'.protoErr ∘ h.protoErr⟩

theorem keepsSticky_of_eq {s t : State} (he : t.errSeen = s.errSeen) (hp : t.protoErr = s.protoErr) :
    KeepsSticky s t :=
  ⟨he.trans, hp.trans⟩

theorem keepsSticky_hostRead (n : Nat) (s : State) : KeepsSticky s (hostRead n s) := by
  rw [hostRead_eq]
  exact keepsSticky_of_eq rfl rfl

theorem runCommand_protoErr {c : Word} {s t : State} (ht : runCommand c s = .next t) :
    t.protoErr = s.protoErr := by
  rcases runCommand_cases ht with ⟨i, -, hi⟩ | rfl
  · obtain ⟨-, -, -, hproto, -⟩ := whatNoCommandChanges i s t hi
    exact hproto
  · rfl

theorem keepsSticky_runCommand {c : Word} {s t : State} (ht : runCommand c s = .next t) : KeepsSticky s t := by
  refine ⟨fun hseen => ?_, (runCommand_protoErr ht).trans⟩
  by_cases hok : t.lastErr = .ok
  · exact (runCommand_errSeen ht hok).trans hseen
  · rw [eq_of_runCommand_of_lastErr ht hok]

theorem keepsSticky_tick {s t : State} (ht : tick s = .next t) : KeepsSticky s t := by
  rcases tick_cases s with ⟨-, e⟩ | ⟨_, -, -, e⟩ | ⟨r, -, -, e⟩ <;> rw [e] at ht
  · cases ht
    exact keepsSticky_of_eq rfl rfl
  · cases ht
    exact keepsSticky_of_eq rfl rfl
  · exact .trans (t := { s with running := none }) (keepsSticky_of_eq rfl rfl) (keepsSticky_runCommand ht)

theorem keepsSticky_startCommand {c : Word} {s t : State} (ht : startCommand c s = .next t) :
    KeepsSticky s t := by
  rcases startCommand_cases c s with ⟨-, e⟩ | ⟨-, e⟩ <;> rw [e] at ht
  · exact keepsSticky_runCommand ht
  · cases ht
    exact keepsSticky_of_eq rfl rfl

theorem keepsSticky_hostWrite {n : Nat} {v : Word} {s t : State} (ht : hostWrite n v s = .next t) :
    KeepsSticky s t := by
  rcases hostWrite_cases n v s with ⟨-, e⟩ | ⟨-, -, e⟩ | ⟨-, -, e⟩ <;> rw [e] at ht
  · exact .trans (t := { s with protoErr := true }) ⟨id, fun _ => rfl⟩ (keepsSticky_tick ht)
  · exact keepsSticky_startCommand ht
  · cases ht
    rw [State.writeReg_eq]
    exact keepsSticky_of_eq rfl rfl

/-- Only reset clears a sticky bit (R348). -/
theorem keepsSticky_step {s t : State} (ht : step s = .next t) (hreset : ∀ rest, s.pending ≠ .reset :: rest) :
    KeepsSticky s t := by
  have accepted (rest : List HostEvent) : KeepsSticky s { s with pending := rest } := keepsSticky_of_eq rfl rfl
  unfold step at ht
  rcases cycle_cases s with ⟨e, -⟩ | ⟨rest, -, e⟩ | ⟨a, rest, -, -, e⟩ | ⟨a, v, rest, -, -, e⟩ |
    ⟨rest, -, -, e⟩ | ⟨rest, hp, -⟩ | ⟨_, _, -, e⟩ | ⟨_, -, -, e⟩
  case inr.inr.inr.inr.inr.inl => exact absurd hp (hreset rest)
  all_goals rw [e] at ht
  · exact keepsSticky_tick ht
  · exact (accepted rest).trans (keepsSticky_tick ht)
  · exact (accepted rest).trans ((keepsSticky_hostRead _ _).trans (keepsSticky_tick ht))
  · exact (accepted rest).trans (keepsSticky_hostWrite ht)
  · exact (accepted rest).trans ((keepsSticky_hostRead _ _).trans (keepsSticky_tick ht))
  · cases ht
  · cases ht

/-- No command reads LAST_ERR, and each overwrites it (R344, R345, R348). -/
theorem exec_lastErr_irrelevant (i : Instr) (s : State) (e : ErrorCode) :
    exec i { s with lastErr := e } = exec i s := by
  cases i <;> rfl

theorem runCommand_lastErr_irrelevant (c : Word) (s : State) (e : ErrorCode) :
    runCommand c { s with lastErr := e } = runCommand c s := by
  unfold runCommand
  split
  · exact exec_lastErr_irrelevant _ s e
  · rfl

/-- A command word that ended with an error meets the same error again and records it again (R348). -/
theorem runCommand_retry {c : Word} {s t : State} (ht : runCommand c s = .next t) (herr : t.lastErr ≠ .ok) :
    runCommand c t = .next t := by
  have first := firstError_lastErr ht
  have again : FirstError c { s with lastErr := t.lastErr, errSeen := true } t.lastErr := first
  rw [eq_of_runCommand_of_lastErr ht herr]
  exact runCommand_of_firstError again herr

/-- Settles O43: a step keeps the sticky bits, no command reads LAST_ERR, and a retry meets the same error. -/
theorem errorsStickAndRepeat : Obligations.ErrorsStickAndRepeat :=
  ⟨fun _ _ ht hreset => have keeps := keepsSticky_step ht hreset; ⟨keeps.errSeen, keeps.protoErr⟩,
    fun c s _ e ht => (runCommand_lastErr_irrelevant c s e).trans ht,
    fun _ _ _ ht herr => runCommand_retry ht herr⟩

end Sys2Proof.Machine

/-!
The host bus while a command runs (rules R384 to R386, R389): the cycle goes on as without the access, since no
command reads PROTO_ERR or what the host has read; and a command is BUSY until its last cycle.
-/
namespace Sys2Proof.Machine

/-! ## No command reads PROTO_ERR or what the host has read -/

/-- The next state of an outcome, changed by f. -/
def mapNext (f : State → State) : Result → Result
  | .next t => .next (f t)
  | .fault r => .fault r
  | .refused r => .refused r

/-- s with PROTO_ERR, the host's reads and the counter of unspecified reads changed by p, g and n. -/
def observed (p : Bool → Bool) (g : List Word → List Word) (n : Nat → Nat) (s : State) : State :=
  { s with protoErr := p s.protoErr, got := g s.got, freeIdx := n s.freeIdx }

section
variable (p : Bool → Bool) (g : List Word → List Word) (n : Nat → Nat)

/-- A guarded command commutes with the change if its unguarded meaning does. -/
theorem exec_observed_of_guarded {i : Instr} {s : State} {r : State → Result}
    (h : ∀ s, exec i s = guarded i.op s (r s)) (hr : r (observed p g n s) = mapNext (observed p g n) (r s)) :
    exec i (observed p g n s) = mapNext (observed p g n) (exec i s) := by
  rw [h, h, hr]
  change (if i.op.requires.allows s.lc then _ else _) =
    mapNext (observed p g n) (if i.op.requires.allows s.lc then _ else _)
  split <;> rfl

/-- Every command has the same effects after the change. -/
theorem exec_observed (i : Instr) (s : State) :
    exec i (observed p g n s) = mapNext (observed p g n) (exec i s) := by
  cases i with
  | init blk keyb =>
    refine exec_observed_of_guarded p g n (fun _ => rfl) ?_
    cases Conf.ofSizes blk keyb <;> rfl
  | addRk j | subRk j | xorRk j =>
    refine exec_observed_of_guarded p g n (fun _ => rfl) ?_
    change (if s.indexOutOfRange j then _ else _) =
      mapNext (observed p g n) (if s.indexOutOfRange j then _ else _)
    split <;> rfl
  | _ => exact exec_observed_of_guarded p g n (fun _ => rfl) rfl

theorem runCommand_observed (c : Word) (s : State) :
    runCommand c (observed p g n s) = mapNext (observed p g n) (runCommand c s) := by
  unfold runCommand
  split
  · exact exec_observed p g n _ s
  · rfl

/-- The engine's part of a cycle has the same effects after the change. -/
theorem tick_observed (s : State) : tick (observed p g n s) = mapNext (observed p g n) (tick s) := by
  unfold tick
  rw [show (observed p g n s).running = s.running from rfl]
  split
  · rfl
  · split
    · exact runCommand_observed p g n _ { s with running := none }
    · rfl

end

/-! ## Accesses while BUSY -/

/-- A read of STATUS returns its value, BUSY or not (R386). -/
theorem hostRead_status (s : State) : hostRead 1 s = { s with got := s.statusWord :: s.got } := by
  unfold hostRead
  rw [if_neg (by simp)]
  rfl

section
variable {s : State} {r : Running} (h : s.running = some r)
include h

theorem busy_of_running : s.busy = true :=
  congrArg Option.isSome h

/-- A cycle that is not the last one brings the command nearer to its end (R384). -/
theorem tick_of_cycles_left (hl : 1 < r.left) :
    tick s = .next { s with running := some ⟨r.cmd, r.left - 1⟩ } := by
  unfold tick
  rw [h]
  exact if_neg (Nat.not_le.2 hl)

/-- A write while BUSY is lost, but for PROTO_ERR (R385). -/
theorem hostWrite_of_running (n : Nat) (v : Word) : hostWrite n v s = tick { s with protoErr := true } := by
  unfold hostWrite
  rw [if_pos (busy_of_running h)]

/-- A read of another register while BUSY returns the free value (R386). -/
theorem hostRead_of_running {n : Nat} (hn : n ≠ 1) :
    hostRead n s = { s with got := Config.busyRead s.freeIdx :: s.got, freeIdx := s.freeIdx + 1 } := by
  unfold hostRead
  rw [if_pos (by simp [busy_of_running h, hn])]

/-- BUSY reads 1 (R43). -/
theorem field_busy_of_running : field s.statusWord 0 0 = 1 := by
  obtain ⟨hbusy, -⟩ := statusRegisterFields s
  rw [hbusy, if_neg (by simp [h])]

end

/-- Settles O50: the write changes PROTO_ERR before the engine's part of the cycle, which does not read it. -/
theorem busyWritesAreLost : Obligations.BusyWritesAreLost := by
  intro s r n v rest hn h hp
  have write : step s = tick { s with pending := rest, protoErr := true } :=
    (step_write hn hp).trans (hostWrite_of_running (s := { s with pending := rest }) h n v)
  refine ⟨fun hl => write.trans (tick_of_cycles_left (s := { s with pending := rest, protoErr := true }) h hl),
    fun _ => ?_⟩
  obtain ⟨t, ht⟩ := tick_next { s with pending := rest }
  have proto := tick_observed (fun _ => true) id id { s with pending := rest }
  rw [ht] at proto
  exact ⟨t, write.trans proto, (step_idle rfl).trans ht⟩

/-- Settles O51: the read changes what the host has read before the engine's part of the cycle, which does not
read it. -/
theorem busyReads : Obligations.BusyReads := by
  intro s r n rest hn h hp
  obtain ⟨t, ht⟩ := tick_next { s with pending := rest }
  have read := step_read hn hp
  have reads (g : List Word → List Word) (k : Nat → Nat) :
      tick (observed id g k { s with pending := rest }) = .next (observed id g k t) := by
    rw [tick_observed, ht]
    rfl
  refine ⟨t, (step_idle rfl).trans ht, fun hn1 => ⟨field_busy_of_running h, ?status⟩, fun hn1 => ?other⟩
  case status =>
    subst hn1
    rw [read, hostRead_status]
    exact reads (fun _ => s.statusWord :: s.got) id
  case other =>
    rw [read, hostRead_of_running (s := { s with pending := rest }) h hn1]
    exact reads (fun _ => Config.busyRead s.freeIdx :: s.got) (fun _ => s.freeIdx + 1)

/-! ## The latency of a command -/

/-- s while the command c runs for m more cycles, in each of which the host is idle. -/
def waiting (s : State) (c : Word) (rest : List HostEvent) (m : Nat) : State :=
  { s with running := some ⟨c, m⟩, pending := List.replicate m .idle ++ rest }

section
variable (s : State) (c : Word) (rest : List HostEvent)

theorem step_waiting (m : Nat) : step (waiting s c rest (m + 2)) = .next (waiting s c rest (m + 1)) :=
  (step_idle (s := waiting s c rest (m + 2)) rfl).trans
    (tick_of_cycles_left (r := ⟨c, m + 2⟩) rfl (Nat.lt_add_left m Nat.one_lt_two))

/-- In the last cycle the command has its effects (R384). -/
theorem step_waiting_last :
    step (waiting s c rest 1) = runCommand c { s with running := none, pending := rest } :=
  (step_idle (s := waiting s c rest 1) rfl).trans (tick_last rfl)

/-- After k cycles of k + m + 1 the command has m + 1 cycles left. -/
theorem core_run_waiting (k m : Nat) :
    Sys2Proof.core.run k (waiting s c rest (k + m + 1)) = .next (waiting s c rest (m + 1)) := by
  induction k with
  | zero => rw [core_run_zero, Nat.zero_add]
  | succ k ih =>
    rw [show k + 1 + m + 1 = k + m + 2 by omega, core_run_succ k (step_waiting s c rest (k + m))]
    exact ih

end

/-- Settles O52: after the CMD write the command waits for its last cycle, and then runs as at the write. -/
theorem commandIsBusyForItsLatency : Obligations.CommandIsBusyForItsLatency := by
  intro s c rest h hlat hp
  have start : step s = .next (waiting s c rest (s.latencyOf c)) :=
    (step_cmd_of_not_running h hp).trans (startCommand_of_latency_pos hlat.ne')
  generalize s.latencyOf c = l at hlat start
  constructor
  · intro k hk hkl
    obtain ⟨j, rfl⟩ := Nat.exists_eq_add_of_le' hk
    obtain ⟨m, rfl⟩ := Nat.exists_eq_add_of_le hkl
    rw [Nat.add_right_comm] at start
    exact ⟨_, (core_run_succ j start).trans (core_run_waiting s c rest j m), rfl⟩
  · obtain ⟨m, rfl⟩ := Nat.exists_eq_add_of_le' hlat
    obtain ⟨t, ht⟩ := runCommand_next c { s with pending := rest }
    obtain ⟨hrunning, -⟩ := runCommand_running_pending ht
    have last : step (waiting s c rest 1) = .next t := by
      rw [step_waiting_last, ← ht, ← h]
    refine ⟨t, ht, ?_, busy_eq_false_iff.2 (hrunning.trans h)⟩
    calc Sys2Proof.core.run (m + 1 + 1) s
        = Sys2Proof.core.run (m + 1) (waiting s c rest (m + 1)) := core_run_succ (m + 1) start
      _ = Sys2Proof.core.run 1 (waiting s c rest 1) := core_run_add m 1 (core_run_waiting s c rest m 0)
      _ = .next t := core_run_succ 0 last

end Sys2Proof.Machine
